-- ==== Sys2Proof/Word.lean ====
section
/-! DEFINITION. The widths of the block's values (00_scope.md R13, R16) and the three components of a color. -/

namespace Sys2Proof

/-- A command word, `w[63:0]` (30_encoding.md R90). -/
abbrev Word := BitVec 64

/-- A u8: a raw or corrected intensity, a register number, a character code as a command carries it. -/
abbrev Byte := BitVec 8

/-- A u24 color `R ++ G ++ B` (00_scope.md R16). -/
abbrev Color := BitVec 24

/-- A u7: a masked character code, or the encoder's pattern (40_display.md R120). -/
abbrev Code := BitVec 7

/-- The level of a pin; `true` is 1. -/
abbrev Level := Bool

/-- The bus address of an LED chip. The spec gives it no width (log 13, DESIGN CHOICE). -/
abbrev BusAddr := Nat

/-- `BLACK`, `#000000` (R16). -/
abbrev black : Color := 0x000000#24

/-- The components of a color (R16). -/
inductive Component where
  | red
  | green
  | blue
deriving DecidableEq, Repr

/-- A list with at least one element: the data the spec calls non-empty cannot be built empty. -/
structure NonEmpty (α : Type) where
  head : α
  tail : List α
deriving DecidableEq, Repr

/-- The elements, first first. -/
def NonEmpty.toList {α : Type} (l : NonEmpty α) : List α := l.head :: l.tail

/-- How many elements; never 0. -/
def NonEmpty.size {α : Type} (l : NonEmpty α) : Nat := l.tail.length + 1

end Sys2Proof
end

