-- ==== Sys2Proof/Syntax.lean ====
section
/-! DEFINITION. The commands of spec/opcode_table.json as `Instr` (30_encoding.md R91, R100), the reasons a word is no
command (R102), and the assembler's source lines (R108). -/

namespace Sys2Proof

/-- The display index, `disp[48]` (30_encoding.md R94; 10_state.md R24). -/
inductive Disp where
  | d0
  | d1
deriving DecidableEq, Repr

/-- The eleven commands. Every operand has the width of its field (R93 to R98), so every term is a command the block
has; the ranges an assembler checks are those of `SourceLine`. -/
inductive Instr where
  /-- ENCODE (40_display.md R122) -/
  | encodeChar (char : Byte)
  /-- PRINT_CHAR (R124) -/
  | printChar (disp : Disp) (pos : BitVec 3) (char : Byte)
  /-- CLEAR_DISPLAY (R127) -/
  | clearDisplay (disp : Disp)
  /-- GAMMA (41_led_driver.md R153) -/
  | gamma (v : Byte)
  /-- SET_LED (R157) -/
  | setLed (chip : BitVec 4) (base : Byte) (color : Color)
  /-- LED_INIT (R161) -/
  | ledInit (chip : BitVec 4)
  /-- LED_SELFTEST (R164) -/
  | ledSelftest (chip : BitVec 4)
  /-- LERP (42_interpolator.md R184) -/
  | lerp (k : Byte) (ca cb : Color)
  /-- BEGIN (43_animation.md R204) -/
  | animBegin (idx : BitVec 16)
  /-- STEP (R206) -/
  | animStep
  /-- BLIT (R216) -/
  | blit
deriving DecidableEq, Repr

/-- Why a word is no command (30_encoding.md R102). -/
inductive Illegal where
  /-- the opcode is not in R100 (R105) -/
  | unassigned
  /-- a reserved bit of a known opcode is 1 (R104) -/
  | reservedBits
deriving DecidableEq, Repr

/-- A line of the assembler's source (R108) with its operands as the numbers written there, not yet checked. -/
inductive SourceLine where
  | encodeChar (char : Nat)
  | printChar (disp pos char : Nat)
  | clearDisplay (disp : Nat)
  | gamma (v : Nat)
  | setLed (chip base color : Nat)
  | ledInit (chip : Nat)
  | ledSelftest (chip : Nat)
  | lerp (ca cb k : Nat)
  | animBegin (idx : Nat)
  | animStep
  | blit
  /-- `.word 0xHHHHHHHHHHHHHHHH` -/
  | word (w : Nat)
deriving DecidableEq, Repr

/-- The rows of the opcode map (R100). -/
inductive Opcode where
  | encode
  | printChar
  | clearDisplay
  | gamma
  | setLed
  | ledInit
  | ledSelftest
  | lerp
  | begin
  | step
  | blit
deriving DecidableEq, Repr

end Sys2Proof
end

