-- ==== Sys2Proof/WellFormed.lean ====
section
/-! DEFINITION. Which source lines are commands: every operand fits its field (30_encoding.md R108: "An operand out of its
field's range ... is an assembly error, not a word"). An `Instr` needs no such check: its operands have their fields'
widths. -/

namespace Sys2Proof

/-- Every operand is within the range of its field (R91, R93 to R98, R108). -/
def SourceLine.wellFormed : SourceLine → Bool
  | .encodeChar char => decide (char < 2 ^ 8)
  | .printChar disp pos char => decide (disp < 2) && decide (pos < 2 ^ 3) && decide (char < 2 ^ 8)
  | .clearDisplay disp => decide (disp < 2)
  | .gamma v => decide (v < 2 ^ 8)
  | .setLed chip base color =>
    decide (chip < 2 ^ 4) && decide (base < 2 ^ 8) && decide (color < 2 ^ 24)
  | .ledInit chip => decide (chip < 2 ^ 4)
  | .ledSelftest chip => decide (chip < 2 ^ 4)
  | .lerp ca cb k => decide (ca < 2 ^ 24) && decide (cb < 2 ^ 24) && decide (k < 2 ^ 8)
  | .animBegin idx => decide (idx < 2 ^ 16)
  | .animStep => true
  | .blit => true
  | .word w => decide (w < 2 ^ 64)

end Sys2Proof
end

