-- ==== Sys2Proof/Decode.lean ====
section
/-! DEFINITION. The decoder, total on every 64-bit word (30_encoding.md R100 to R102), and after it the encoder and the
assembler of R108, written from the same formats (R91). The encoding is the spec's own choice (D1). -/

namespace Sys2Proof

/-- The rows, in R100's order. -/
def Opcode.all : List Opcode :=
  [.encode, .printChar, .clearDisplay, .gamma, .setLed, .ledInit, .ledSelftest, .lerp, .begin, .step, .blit]

/-- `op[63:56]` (R100). -/
def Opcode.code : Opcode → Byte
  | .encode => 0x01
  | .printChar => 0x02
  | .clearDisplay => 0x03
  | .gamma => 0x10
  | .setLed => 0x11
  | .ledInit => 0x12
  | .ledSelftest => 0x13
  | .lerp => 0x20
  | .begin => 0x30
  | .step => 0x31
  | .blit => 0x32

/-- R101's match column. -/
def Opcode.pattern : Opcode → Word
  | .encode => 0x0100000000000000
  | .printChar => 0x0200000000000000
  | .clearDisplay => 0x0300000000000000
  | .gamma => 0x1000000000000000
  | .setLed => 0x1100000000000000
  | .ledInit => 0x1200000000000000
  | .ledSelftest => 0x1300000000000000
  | .lerp => 0x2000000000000000
  | .begin => 0x3000000000000000
  | .step => 0x3100000000000000
  | .blit => 0x3200000000000000

/-- R101's mask column: the opcode and every reserved bit. -/
def Opcode.mask : Opcode → Word
  | .encode => 0xFFFFFFFFFFFFFF00
  | .printChar => 0xFFFEF8FFFFFFFF00
  | .clearDisplay => 0xFFFEFFFFFFFFFFFF
  | .gamma => 0xFFFFFFFFFFFFFF00
  | .setLed => 0xFF0F00FFFF000000
  | .ledInit => 0xFF0FFFFFFFFFFFFF
  | .ledSelftest => 0xFF0FFFFFFFFFFFFF
  | .lerp => 0xFF00000000000000
  | .begin => 0xFFFFFFFFFFFF0000
  | .step => 0xFFFFFFFFFFFFFFFF
  | .blit => 0xFFFFFFFFFFFFFFFF

/-- `w & mask(X) = match(X)` (R101). -/
def Opcode.selects (o : Opcode) (w : Word) : Bool := w &&& o.mask == o.pattern

/-- `v[hi:lo]` of a word, `width = hi - lo + 1` (00_scope.md R13). -/
def field (lo width : Nat) (w : Word) : BitVec width := w.extractLsb' lo width

/-- The display a one-bit index names (R94). -/
def Disp.ofBit (b : BitVec 1) : Disp := if b = 1 then .d1 else .d0

/-- The index of a display (R94). -/
def Disp.toBit : Disp → BitVec 1
  | .d0 => 0
  | .d1 => 1

/-- The command of a matched row, its fields cut per R91. -/
def Opcode.cut (o : Opcode) (w : Word) : Instr :=
  match o with
  | .encode => .encodeChar (field 0 8 w)
  | .printChar => .printChar (.ofBit (field 48 1 w)) (field 40 3 w) (field 0 8 w)
  | .clearDisplay => .clearDisplay (.ofBit (field 48 1 w))
  | .gamma => .gamma (field 0 8 w)
  | .setLed => .setLed (field 52 4 w) (field 40 8 w) (field 0 24 w)
  | .ledInit => .ledInit (field 52 4 w)
  | .ledSelftest => .ledSelftest (field 52 4 w)
  | .lerp => .lerp (field 48 8 w) (field 24 24 w) (field 0 24 w)
  | .begin => .animBegin (field 0 16 w)
  | .step => .animStep
  | .blit => .blit

/-- `Decode(w)` of R102. -/
def decode (w : Word) : Except Illegal Instr :=
  match Opcode.all.find? (·.selects w) with
  | some o => .ok (o.cut w)
  | none =>
    if Opcode.all.any fun o => o.code == field 56 8 w then .error .reservedBits
    else .error .unassigned

/-- What the decoder reads from the `nbits` bits `w`, the bits above them zero. The command is one number (R90): the table
numbers its bits as the spec does. -/
def decodeTableWord (nbits w : Nat) : Option Instr :=
  if nbits ≤ 64 then
    match decode (BitVec.ofNat 64 (w % 2 ^ nbits)) with
    | .ok i => some i
    | .error _ => none
  else none

/-- The word of a command, its fields laid out per R91 from bit 63 down, reserved bits zero. -/
def encode : Instr → Word
  | .encodeChar char => 0x01#8 ++ 0#48 ++ char
  | .printChar disp pos char => 0x02#8 ++ 0#7 ++ disp.toBit ++ 0#5 ++ pos ++ 0#32 ++ char
  | .clearDisplay disp => 0x03#8 ++ 0#7 ++ disp.toBit ++ 0#48
  | .gamma v => 0x10#8 ++ 0#48 ++ v
  | .setLed chip base color => 0x11#8 ++ chip ++ 0#4 ++ base ++ 0#16 ++ color
  | .ledInit chip => 0x12#8 ++ chip ++ 0#52
  | .ledSelftest chip => 0x13#8 ++ chip ++ 0#52
  | .lerp k ca cb => 0x20#8 ++ k ++ ca ++ cb
  | .animBegin idx => 0x30#8 ++ 0#40 ++ idx
  | .animStep => 0x31#8 ++ 0#56
  | .blit => 0x32#8 ++ 0#56

/-- The opcode row of a command (R100). -/
def Instr.opcode : Instr → Opcode
  | .encodeChar _ => .encode
  | .printChar _ _ _ => .printChar
  | .clearDisplay _ => .clearDisplay
  | .gamma _ => .gamma
  | .setLed _ _ _ => .setLed
  | .ledInit _ => .ledInit
  | .ledSelftest _ => .ledSelftest
  | .lerp _ _ _ => .lerp
  | .animBegin _ => .begin
  | .animStep => .step
  | .blit => .blit

/-! ### The assembler (R108) -/

/-- The display a number names; the assembler has checked that it is 0 or 1. -/
def Disp.ofIndex (n : Nat) : Disp := if n = 1 then .d1 else .d0

/-- The word of a checked source line: R108's forms in R91's formats. -/
def SourceLine.toWord : SourceLine → Word
  | .encodeChar char => encode (.encodeChar (.ofNat 8 char))
  | .printChar disp pos char => encode (.printChar (.ofIndex disp) (.ofNat 3 pos) (.ofNat 8 char))
  | .clearDisplay disp => encode (.clearDisplay (.ofIndex disp))
  | .gamma v => encode (.gamma (.ofNat 8 v))
  | .setLed chip base color => encode (.setLed (.ofNat 4 chip) (.ofNat 8 base) (.ofNat 24 color))
  | .ledInit chip => encode (.ledInit (.ofNat 4 chip))
  | .ledSelftest chip => encode (.ledSelftest (.ofNat 4 chip))
  | .lerp ca cb k => encode (.lerp (.ofNat 8 k) (.ofNat 24 ca) (.ofNat 24 cb))
  | .animBegin idx => encode (.animBegin (.ofNat 16 idx))
  | .animStep => encode .animStep
  | .blit => encode .blit
  | .word w => .ofNat 64 w

/-- The source line of a command: its operands as numbers (R108). -/
def Instr.source : Instr → SourceLine
  | .encodeChar char => .encodeChar char.toNat
  | .printChar disp pos char => .printChar disp.toBit.toNat pos.toNat char.toNat
  | .clearDisplay disp => .clearDisplay disp.toBit.toNat
  | .gamma v => .gamma v.toNat
  | .setLed chip base color => .setLed chip.toNat base.toNat color.toNat
  | .ledInit chip => .ledInit chip.toNat
  | .ledSelftest chip => .ledSelftest chip.toNat
  | .lerp k ca cb => .lerp ca.toNat cb.toNat k.toNat
  | .animBegin idx => .animBegin idx.toNat
  | .animStep => .animStep
  | .blit => .blit

/-- The word of a source line, or no word: an assembly error (R108). -/
def SourceLine.assemble (l : SourceLine) : Option Word :=
  if l.wellFormed then some l.toWord else none

end Sys2Proof
end

