-- ==== Sys2Proof/Config.lean ====
section
/-! DEFINITION. What the source fixes (00_scope.md R11: named constants), the launch constants and open parameters
(R12, 10_state.md R38, R42) as plain data checked once, and the free values, which have no body. -/

namespace Sys2Proof

/-! ### The constants of R11 -/

/-- `NDISP`: physical displays. -/
abbrev Config.ndisp : Nat := 2
/-- `NPOS`: character positions of a display. -/
abbrev Config.npos : Nat := 5
/-- `NADDR`: address-select lines. -/
abbrev Config.naddr : Nat := 2
/-- `CHAR_BITS`: bits of a masked code and of a pattern. -/
abbrev Config.charBits : Nat := 7
/-- `NGROUPS`: channel groups filled per tick. -/
abbrev Config.ngroups : Nat := 7
/-- `BUF_CAP`: capacity of the Channel Buffer. -/
abbrev Config.bufCap : Nat := 6
/-- `NSPARKLE`: active groups of a new sparkle cycle. -/
abbrev Config.nsparkle : Nat := 3
/-- `LERP_STEP`: progress per crossfading tick. -/
abbrev Config.lerpStep : Nat := 20
/-- `LERP_MAX`: the progress that means a fraction of 1. -/
abbrev Config.lerpMax : Nat := 100
/-- `LUT_SIZE`: gamma entries. -/
abbrev Config.lutSize : Nat := 256
/-- `NEXT_OFFSET`: from the returned register to the next group's base. -/
abbrev Config.nextOffset : Nat := 4
/-- `NBUTTONS`: the host's push-buttons. -/
abbrev Config.nbuttons : Nat := 4

/-- The index of a channel group, `0..NGROUPS-1` (10_state.md R32). -/
abbrev Group := Fin Config.ngroups

/-! ### The palette ROM (10_state.md R38, R39) -/

/-- A style tag (R39). -/
inductive Style where
  | fade
  | sweep
  | sparkle
  | unknown (tag : String)
deriving DecidableEq, Repr

/-- An Animation Descriptor (R39). -/
structure Descriptor where
  style : Style
  fade : Bool
  mix : Bool
deriving DecidableEq, Repr

/-- A palette record: its colors, never empty, and its descriptor (R38). -/
structure Palette where
  colors : NonEmpty Color
  desc : Descriptor
deriving DecidableEq, Repr

/-! ### The gamma table (41_led_driver.md R150, R151) -/

/-- 256 entries with the laws L1 to L4 of R151; the non-identity of L4 is its reading of "non-linear". -/
abbrev GammaLaws (t : List Byte) : Prop :=
  t.length = Config.lutSize ∧ t[0]? = some 0 ∧ t[255]? = some 255 ∧ t.Pairwise (· ≤ ·) ∧
    t ≠ (List.range Config.lutSize).map (BitVec.ofNat 8)

/-- `GAMMA`: a table that meets its laws. -/
structure GammaTable where
  entries : List Byte
  lawful : GammaLaws entries
deriving DecidableEq, Repr

/-! ### LED chips and their transaction lists (41_led_driver.md R159, R160, R163) -/

/-- One bus write of a parameter list: a register and one byte or more (20_memory.md R70). -/
structure RegWrite where
  reg : Byte
  bytes : NonEmpty Byte
deriving DecidableEq, Repr

/-- A non-empty list of bus writes, such as `RESET_TXNS(chip)`. -/
abbrev TxnGroup := NonEmpty RegWrite

/-- The registers a write sets, if byte `k` lands at `reg + k` (20_memory.md R67, marked there as general knowledge;
log 15, PRESUMED). -/
def RegWrite.cells (t : RegWrite) : List (Nat × Byte) :=
  t.bytes.toList.zipIdx.map fun (b, k) => (t.reg.toNat + k, b)

/-- One window of the self-test (R163): `w_k` and the writes that light it. -/
structure Window where
  start : Byte
  writes : TxnGroup
deriving DecidableEq, Repr

/-- The last byte the window's writes leave in register `r`. -/
def Window.lastByte (w : Window) (r : Nat) : Option Byte :=
  ((w.writes.toList.flatMap RegWrite.cells).reverse.find? (fun c => c.1 == r)).map (·.2)

/-- The window sets the 4 registers `w_k .. w_k + 3` to full intensity 0xFF (R163; log 15). -/
def Window.full (w : Window) : Bool :=
  decide (w.start.toNat + 3 ≤ 255) &&
    (List.range 4).all fun i => w.lastByte (w.start.toNat + i) == some 0xFF

/-- Consecutive windows overlap: `w_k < w_(k+1) < w_k + 4` (R163). -/
def overlapping : List Window → Bool
  | [] => true
  | [_] => true
  | v :: w :: rest =>
    decide (v.start.toNat < w.start.toNat) && decide (w.start.toNat < v.start.toNat + 4) &&
      overlapping (w :: rest)

/-- What R163 asks of `SELFTEST_STEPS(chip)`. -/
def selfTestLawful (ws : List Window) : Bool := ws.all Window.full && overlapping ws

/-- An attached LED chip: its bus address and the transaction lists that depend on nothing but the chip (and, for the
ceiling, on `cfg.overdrive`): R159, R160, R163 (log 14). -/
structure Chip where
  addr : BusAddr
  resetTxns : TxnGroup
  scaleTxns : TxnGroup
  blankTxns : TxnGroup
  /-- `CEIL_TXNS(chip, false)` -/
  ceilTxns : TxnGroup
  /-- `CEIL_TXNS(chip, true)` -/
  ceilTxnsOverdrive : TxnGroup
  normalTxns : TxnGroup
  /-- `SELFTEST_STEPS(chip)` -/
  selfTest : List Window
  lawful : selfTestLawful selfTest = true
deriving DecidableEq, Repr

/-! ### The open parameters with a default (00_scope.md R12) -/

/-- The levels of the two address lines for a position (40_display.md R123). -/
structure AddrLines where
  a1 : Level
  a0 : Level
deriving DecidableEq, Repr

/-- `SLOT_LAYOUT` (R155). -/
inductive SlotLayout where
  | slot
  | component
deriving DecidableEq, Repr

/-- `BLIT_THREADING` (43_animation.md R215). -/
inductive BlitThreading where
  | perCall
  | perEntry
deriving DecidableEq, Repr

/-- `BEGIN_ORDER` (R204). -/
inductive BeginOrder where
  | renderThenBlank
  | blankThenRender
deriving DecidableEq, Repr

/-- `LERP_ROUND`: `Floor`, the alternatives 93_implementation_defined.md section 2 names, or any other rounding to one of
the two neighbouring integers, told apart by a number (42_interpolator.md R182; log 12, DESIGN CHOICE). -/
inductive LerpRound where
  | floor
  | halfUp
  | halfEven
  | truncate
  | other (id : Nat)
deriving DecidableEq, Repr

/-- The open parameters of R12 that are no table, palette or chip. R12 types `SELFTEST_DELAY_MS` and `COOLDOWN_MS` only as
durations; that each is a whole number of milliseconds is DESIGN CHOICE (log 23). -/
structure OpenParams where
  addrMap : Vector AddrLines Config.npos
  firstBase : Byte
  slotLayout : SlotLayout
  blitThreading : BlitThreading
  beginOrder : BeginOrder
  lerpRound : LerpRound
  /-- `SELFTEST_DELAY_MS`, in whole ms (log 23) -/
  selfTestDelayMs : Nat
  /-- `COOLDOWN_MS`, in whole ms (log 23), host side (60_exceptions.md R264) -/
  cooldownMs : Nat
deriving DecidableEq, Repr

/-- `ADDR_MAP`'s default, `(pos[1], pos[0])` (40_display.md R123, D4). -/
def Config.addrMapDefault : Vector AddrLines Config.npos :=
  #v[⟨false, false⟩, ⟨false, true⟩, ⟨true, false⟩, ⟨true, true⟩, ⟨false, false⟩]

/-- The defaults of 92_eei_decisions.md; the two durations have none. -/
def OpenParams.default (delayMs cooldownMs : Nat) : OpenParams where
  addrMap := Config.addrMapDefault
  firstBase := 0x01
  slotLayout := .slot
  blitThreading := .perCall
  beginOrder := .renderThenBlank
  lerpRound := .floor
  selfTestDelayMs := delayMs
  cooldownMs := cooldownMs

/-! ### A launch (60_exceptions.md R271) -/

/-- The launch constants of a run (10_state.md R42): they meet R38, R151 and R166 because no other value can be built. -/
structure Launch where
  palettes : NonEmpty Palette
  gamma : GammaTable
  /-- `ATTACHED`, in scan order (41_led_driver.md R165) -/
  attached : List Chip
  /-- "each LED Register Driver instance exclusively owns its bus address" (R166) -/
  distinct : (attached.map Chip.addr).Nodup
  params : OpenParams
deriving DecidableEq, Repr

/-- A palette record as the data collaborator gives it (10_state.md R38, R39). -/
structure PaletteData where
  colors : List Color
  style : String
  fade : Option Bool
  mix : Option Bool
deriving DecidableEq, Repr

/-- What the host offers for a launch. -/
structure LaunchData where
  palettes : List PaletteData
  gamma : List Byte
  attached : List Chip
  params : OpenParams
deriving DecidableEq, Repr

/-- Why a launch is refused before the run (93_implementation_defined.md: "refuse"). -/
inductive LaunchRefusal where
  /-- `PALETTES` is empty (R38). Safe. -/
  | noPalettes
  /-- Palette `index` has no color (R38). Safe. -/
  | emptyPalette (index : Nat)
  /-- `GAMMA` breaks a law of R151. Safe. -/
  | unlawfulGamma
  /-- A bus address stands twice in `ATTACHED` (R166). Safe. -/
  | repeatedChip
deriving DecidableEq, Repr

/-- The style the data's string names (R39). -/
def Style.ofString (tag : String) : Style :=
  if tag = "fade" then .fade
  else if tag = "sweep" then .sweep
  else if tag = "sparkle" then .sparkle
  else .unknown tag

/-- A record of the data as a palette; a missing flag reads false (R39). -/
def PaletteData.load (index : Nat) (d : PaletteData) : Except LaunchRefusal Palette :=
  match d.colors with
  | [] => .error (.emptyPalette index)
  | c :: cs => .ok ⟨⟨c, cs⟩, ⟨.ofString d.style, d.fade.getD false, d.mix.getD false⟩⟩

/-- Every record in order, or the refusal of the first empty one. -/
def loadPalettes : Nat → List PaletteData → Except LaunchRefusal (List Palette)
  | _, [] => .ok []
  | i, d :: ds =>
    match d.load i, loadPalettes (i + 1) ds with
    | .ok p, .ok ps => .ok (p :: ps)
    | .error e, _ => .error e
    | _, .error e => .error e

/-- A launch: the checked constants, or the refusal (R38, R151, R166). -/
def Launch.load (d : LaunchData) : Except LaunchRefusal Launch :=
  match loadPalettes 0 d.palettes with
  | .error e => .error e
  | .ok [] => .error .noPalettes
  | .ok (p :: ps) =>
    if hg : GammaLaws d.gamma then
      if hc : (d.attached.map Chip.addr).Nodup then
        .ok ⟨⟨p, ps⟩, ⟨d.gamma, hg⟩, d.attached, hc, d.params⟩
      else .error .repeatedChip
    else .error .unlawfulGamma

/-! ### Free values -/

/-- A draw of the choice oracle: 3 distinct channel groups, written in ascending order (43_animation.md R214; log 21). -/
structure Draw where
  first : Group
  second : Group
  third : Group
  ascending : first < second ∧ second < third
deriving DecidableEq, Repr

/-- The set a draw stands for. -/
def Draw.groups (d : Draw) : List Group := [d.first, d.second, d.third]

/-- FREE VALUE (log 7): the oracle's answer at a position of its sequence the host's list does not reach. The bracketed
argument only says that a draw exists. -/
opaque Config.freeDraw [Inhabited Draw] : Nat → Draw

/-- FREE VALUE (log 12): whether the rounding `LERP_ROUND = other id` takes the upper neighbour of `n / 100`. -/
opaque Config.freeRoundUp : Nat → Int → Bool

/-- FREE VALUE (log 2): the launch constants of the run that `State.reset` starts. The bracketed argument only says that a
lawful launch exists. -/
opaque Config.freeLaunch [Inhabited Launch] : Launch

/-- That a draw exists; its value is used nowhere else. -/
abbrev Config.someDraw : Draw := ⟨0, 1, 2, by decide⟩

theorem Config.stepTable_lawful (n : Nat) (hn : n = 255) :
    GammaLaws (List.replicate n 0#8 ++ [255#8]) := by
  have left : ∀ i < n, (List.replicate n 0#8 ++ [255#8])[i]? = some 0 := fun i hi => by
    rw [List.getElem?_append_left (by rwa [List.length_replicate]), List.getElem?_replicate, if_pos hi]
    rfl
  refine ⟨by rw [List.length_append, List.length_replicate, hn]; rfl, left 0 (by omega), ?_, ?_, ?_⟩
  · rw [List.getElem?_append_right (by rw [List.length_replicate]; omega), List.length_replicate, hn]
    rfl
  · simp [List.pairwise_append, List.pairwise_replicate]
  · intro h
    have h1 := left 1 (by omega)
    rw [h, List.getElem?_map, List.getElem?_range (by decide)] at h1
    exact absurd h1 (by decide)

/-- That a lawful launch exists; its value is used nowhere else. -/
abbrev Config.someLaunch : Launch where
  palettes := ⟨⟨⟨black, []⟩, ⟨.fade, false, false⟩⟩, []⟩
  gamma := ⟨_, Config.stepTable_lawful 255 rfl⟩
  attached := []
  distinct := by simp
  params := .default 0 0

/-- The oracle's free answer at position `n`. -/
def Config.draw (n : Nat) : Draw := @Config.freeDraw ⟨Config.someDraw⟩ n

/-- The launch constants of the run that `State.reset` starts: free. -/
def Config.launch : Launch := @Config.freeLaunch ⟨Config.someLaunch⟩

end Sys2Proof
end

