-- ==== Sys2Proof/Machine/State.lean ====
section
/-! DEFINITION. Everything the spec gives the machine, as plain data (10_state.md R20 to R46), with the host's coming inputs
(R46: "Inputs per command") and the launch constants beside it; the state after reset (R44, R290). -/

namespace Sys2Proof.Machine

/-- The output pins (10_state.md R23 to R25). -/
inductive Pin where
  | a0
  | a1
  | weN0
  | weN1
  | ser
  | sclk
  | rclk
deriving DecidableEq, Repr

/-- The levels of the output pins. `none` is the spec's "no value until first driven" (R23 to R26, D9; log 9). -/
structure Pins where
  a0 : Option Level
  a1 : Option Level
  weN0 : Option Level
  weN1 : Option Level
  ser : Option Level
  sclk : Option Level
  rclk : Option Level
deriving DecidableEq, Repr

/-- One bus transaction, `write(chip, reg, bytes)` (R40). -/
structure Txn where
  chip : BusAddr
  reg : Byte
  bytes : List Byte
deriving DecidableEq, Repr

/-- An event of the output trace (R40); a delay records whole milliseconds (log 23). -/
inductive Event where
  | pin (p : Pin) (level : Level)
  | txn (t : Txn)
  | diag (tag : String)
  | delay (ms : Nat)
deriving DecidableEq, Repr

/-- The three integers of a blend, not clamped (42_interpolator.md R180, R181). -/
structure Triad where
  red : Int
  green : Int
  blue : Int
deriving DecidableEq, Repr

/-- A value of the result port (10_state.md R41). -/
inductive Value where
  /-- ENCODE's pattern (40_display.md R122) -/
  | pattern (p : Code)
  /-- GAMMA's corrected intensity (41_led_driver.md R153) -/
  | intensity (v : Byte)
  /-- SET_LED's last register (R157) -/
  | register (r : Byte)
  /-- LERP's triple (42_interpolator.md R184) -/
  | triad (t : Triad)
deriving DecidableEq, Repr

/-- The faults of 60_exceptions.md R251, with the info each records, and one of the model's own. A command that raises one
answers a next state with it in `State.fault` (R250; log 1); from a faulted state a step answers it as the outcome fault.
All are safe: the spec stops the block at each of the eight, and the ninth stands where R63 defines nothing. -/
inductive Fault where
  /-- Code 1, raised by the step for a word that decodes to no command (30_encoding.md R103). Safe: R251. -/
  | illegalCommand (w : Word) (why : Illegal)
  /-- Code 2, raised by PRINT_CHAR at positions 5 to 7 (40_display.md R129). Safe: R251. -/
  | illegalPosition (pos : BitVec 3)
  /-- Code 3, raised by SET_LED, LED_INIT, LED_SELFTEST (41_led_driver.md R157). Safe: R251. -/
  | noChip (index : BitVec 4)
  /-- Code 4, raised by SetLed on an illegal `cfg.pixel_order`, the value read (R154). Safe: R251. -/
  | pixelOrder (value : Option String)
  /-- Code 5, raised by SetLed when `base > 250` (R158). Safe: R251. -/
  | registerRange (base : Nat)
  /-- Code 6, raised by any transaction the transport answers `fail` (60_exceptions.md R253). Safe: R251. -/
  | busFault (t : Txn)
  /-- Code 7, raised by BEGIN (43_animation.md R221). Safe: R251. -/
  | badPalette (idx : BitVec 16)
  /-- Code 8, raised by STEP before the first BEGIN (R219). Safe: R251. -/
  | noPalette
  /-- The model's own (log 11): an index outside the palette ROM or outside a palette, where 20_memory.md R63 defines no
  read. Raised by STEP only in states no run reaches. Safe. -/
  | romHole (index : Nat)
deriving DecidableEq, Repr

/-- Why the model has no meaning for an instruction. -/
inductive Refusal where
  /-- An instruction without a meaning yet, by its mnemonic. Raised by no arm of this model. Safe. -/
  | notModelled (mnemonic : String)
deriving DecidableEq, Repr

/-- The animation fields, which have values exactly once a BEGIN has set them (R27 to R32; log 8). -/
structure Anim where
  /-- `pal` (R28) -/
  pal : Nat
  /-- `current_color` (R29) -/
  currentColor : Nat
  /-- `lerping`, the status flag (R30) -/
  lerping : Bool
  /-- `last_lerp`, in percent (R31) -/
  lastLerp : Nat
  /-- `active`, in ascending order (R32; log 21) -/
  active : List Group
deriving DecidableEq, Repr

/-- The host's stored configuration, each key perhaps missing (R33). -/
structure Cfg where
  pixelOrder : Option String
  batterySaver : Option Bool
  overdrive : Option Bool
  animationFps : Option Int
  glitch : Option Bool
  flag : Option Nat
  pronouns : Option Nat
deriving DecidableEq, Repr

/-- The transport's answer to a transaction (60_exceptions.md R253). -/
inductive BusAnswer where
  | ok
  | fail
deriving DecidableEq, Repr

/-- What the host does next: issue a command word, or change the stored configuration between commands (R271). -/
inductive HostAct where
  | command (w : Word)
  | configure (c : Cfg)
deriving DecidableEq, Repr

/-- The whole state (R46) with the host's inputs. -/
structure State where
  /-- `fault` (R22) -/
  fault : Option Fault
  /-- the output pins (R23 to R25) -/
  pins : Pins
  /-- `begun` and the animation fields (R27 to R32) -/
  anim : Option Anim
  /-- the Channel Buffer, oldest first (R37) -/
  buf : List Color
  /-- the output trace (R40) -/
  trace : List Event
  /-- the result port (R41) -/
  result : Option Value
  /-- the configuration inputs (R33) -/
  cfg : Cfg
  /-- the launch constants, never written (R42) -/
  launch : Launch
  /-- the transport's coming answers, next first (60_exceptions.md R253; log 6) -/
  answers : List BusAnswer
  /-- the oracle's coming draws, next first (43_animation.md R214; log 7) -/
  draws : List Draw
  /-- the position of the choice oracle (R43) -/
  drawPos : Nat
  /-- the rest of the host's list, next first (R21; log 3): any list here (60_exceptions.md R271); `serve` makes those of a
  host that runs handler after handler (R259) -/
  commands : List HostAct
  /-- the position in the host's list of commands (R21) -/
  index : Nat
deriving DecidableEq, Repr

/-- No pin has been driven (R44). -/
def Pins.undriven : Pins := ⟨none, none, none, none, none, none, none⟩

/-- A configuration with no key stored (R33; log 10). -/
def Cfg.missing : Cfg := ⟨none, none, none, none, none, none, none⟩

/-- The reset state of a launch with the host's stored configuration (R44, R290, R291). -/
def State.launched (l : Launch) (c : Cfg) : State where
  fault := none
  pins := .undriven
  anim := none
  buf := []
  trace := []
  result := none
  cfg := c
  launch := l
  answers := []
  draws := []
  drawPos := 0
  commands := []
  index := 0

/-- The machine right after reset (R44): the launch is free (log 2), no configuration key is stored (log 10), and the host
has issued nothing (log 18). -/
def State.reset : State := .launched Config.launch .missing

end Sys2Proof.Machine
end

