-- ==== Sys2Proof/Machine/Ops.lean ====
section
/-! DEFINITION. The named operations over the state: 00_scope.md R14's primitives, raising a fault (60_exceptions.md R250),
running a command (R41), the Channel Buffer (20_memory.md R65, R66), the palette ROM (R63), the gamma table
(41_led_driver.md R150) and the oracle (43_animation.md R214). -/

namespace Sys2Proof.Machine

/-! ### Going on, or stopped by a fault (R250) -/

/-- How an operation inside a command ended. -/
inductive Flow (α : Type) where
  /-- it went on with a value -/
  | ok (a : α) (s : State)
  /-- a fault stopped the command; the state holds it and everything written before -/
  | raised (s : State)
deriving DecidableEq, Repr

/-- The rest of a command after an operation: not run once a fault is raised (R250). -/
def Flow.bind {α β : Type} (x : Flow α) (f : α → State → Flow β) : Flow β :=
  match x with
  | .ok a s => f a s
  | .raised s => .raised s

/-- The state an operation left, stopped or not. -/
def Flow.state {α : Type} : Flow α → State
  | .ok _ s => s
  | .raised s => s

/-- One operation per element, first first, stopping at the first fault. -/
def Flow.each {α : Type} (f : α → State → Flow Unit) : List α → State → Flow Unit
  | [], s => .ok () s
  | a :: rest, s => (f a s).bind fun _ s => Flow.each f rest s

/-- `raise F(info)` (R250): everything written stays, `fault` is set, the rest of the command is not run. This is the
block's whole exception entry: nothing else is saved or changed (R256). -/
def raise {α : Type} (f : Fault) (s : State) : Flow α := .raised { s with fault := some f }

/-- One command from start to end: none runs after a fault (R250); the result port is cleared first (10_state.md R41). -/
def runCommand (s : State) (body : State → Flow Unit) : Host.Outcome State Fault Refusal :=
  match s.fault with
  | some f => .fault f
  | none => .next (body { s with result := none }).state

/-- Executing a word that decodes to no command: no state other than `fault` changes (30_encoding.md R103; log 5). -/
def illegalWord (w : Word) (why : Illegal) (s : State) : Host.Outcome State Fault Refusal :=
  .next (raise (α := Unit) (.illegalCommand w why) s).state

/-- The host issues the next command of its list: the position advances by exactly 1 (10_state.md R21). -/
def State.takeCommand (rest : List HostAct) (s : State) : State :=
  { s with commands := rest, index := s.index + 1 }

/-- The host changes the stored configuration between two commands (60_exceptions.md R271). -/
def State.configure (c : Cfg) (rest : List HostAct) (s : State) : State :=
  { s with cfg := c, commands := rest }

/-- The code of a fault in R251; the model's own fault has none. -/
def Fault.code : Fault → Option Nat
  | .illegalCommand _ _ => some 1
  | .illegalPosition _ => some 2
  | .noChip _ => some 3
  | .pixelOrder _ => some 4
  | .registerRange _ => some 5
  | .busFault _ => some 6
  | .badPalette _ => some 7
  | .noPalette => some 8
  | .romHole _ => none

/-! ### Output (00_scope.md R14, 10_state.md R40) -/

/-- Appends an event to the trace. -/
def State.record (e : Event) (s : State) : State := { s with trace := s.trace ++ [e] }

/-- The levels after pin `p` is driven to `b`. -/
def Pins.drive (p : Pin) (b : Level) (ps : Pins) : Pins :=
  match p with
  | .a0 => { ps with a0 := some b }
  | .a1 => { ps with a1 := some b }
  | .weN0 => { ps with weN0 := some b }
  | .weN1 => { ps with weN1 := some b }
  | .ser => { ps with ser := some b }
  | .sclk => { ps with sclk := some b }
  | .rclk => { ps with rclk := some b }

/-- The level of a pin, if it has one. -/
def Pins.level (p : Pin) (ps : Pins) : Option Level :=
  match p with
  | .a0 => ps.a0
  | .a1 => ps.a1
  | .weN0 => ps.weN0
  | .weN1 => ps.weN1
  | .ser => ps.ser
  | .sclk => ps.sclk
  | .rclk => ps.rclk

/-- `pin(P) <- b` (R14). -/
def drivePin (p : Pin) (b : Level) (s : State) : State :=
  State.record (.pin p b) { s with pins := s.pins.drive p b }

/-- `pin(P) <- b` for each pair, first first. -/
def drivePins (l : List (Pin × Level)) (s : State) : State :=
  l.foldl (fun s pb => drivePin pb.1 pb.2 s) s

/-- `diag(x)` (R14). -/
def emitDiag (tag : String) (s : State) : State := s.record (.diag tag)

/-- `delay(ms)` (R14). -/
def emitDelay (ms : Nat) (s : State) : State := s.record (.delay ms)

/-- The transport's answer to the next transaction and the answers after it; past the end of the host's list every
transaction is answered `ok` (60_exceptions.md R253; log 6). -/
def nextAnswer (l : List BusAnswer) : BusAnswer × List BusAnswer :=
  match l with
  | [] => (.ok, [])
  | a :: rest => (a, rest)

/-- `txn(chip, reg, bytes)` (R14, R253): the event is appended; on `fail` the command stops with `BusFault`. -/
def emitTxn (t : Txn) (s : State) : Flow Unit :=
  let s' := State.record (.txn t) { s with answers := (nextAnswer s.answers).2 }
  match (nextAnswer s.answers).1 with
  | .ok => .ok () s'
  | .fail => raise (.busFault t) s'

/-- The transaction of one write of a parameter list to a chip. -/
def writeTxn (chip : BusAddr) (w : RegWrite) : Txn := ⟨chip, w.reg, w.bytes.toList⟩

/-- `emit X_TXNS(chip)`: the list's transactions in order (41_led_driver.md R160). -/
def emitGroup (chip : BusAddr) (g : TxnGroup) (s : State) : Flow Unit :=
  Flow.each (fun w => emitTxn (writeTxn chip w)) g.toList s

/-- `result <- v` (R14). -/
def State.answer (v : Value) (s : State) : State := { s with result := some v }

/-! ### The Channel Buffer (20_memory.md R65, R66) -/

/-- R65's push into a FIFO of capacity `cap`: a full one first drops its oldest entry. -/
def fifoPush (cap : Nat) (l : List Color) (c : Color) : List Color :=
  (if l.length = cap then l.drop 1 else l) ++ [c]

/-- `BufPush(c)` (R65). -/
def bufPush (c : Color) (s : State) : State := { s with buf := fifoPush Config.bufCap s.buf c }

/-- `BufPop()` (R66): the oldest entry and the state without it; nothing from an empty buffer, where R66 is not called. -/
def bufPop (s : State) : Option (Color × State) :=
  match s.buf with
  | [] => none
  | c :: rest => some (c, { s with buf := rest })

/-- Every channel group, ascending. -/
def groups : List Group := List.finRange Config.ngroups

/-- One entry per channel group, pushed in ascending group order (43_animation.md R201, R202). -/
def pushFrame (f : Group → Color) (s : State) : State :=
  groups.foldl (fun s g => bufPush (f g) s) s

/-! ### Read-only data (20_memory.md R63, R64; 41_led_driver.md R150) -/

/-- `ROMRead(i)` (R63); outside `0 <= i < N`, where R63 defines nothing, the model stops (log 11). -/
def romRead (i : Nat) (s : State) : Flow Palette :=
  match s.launch.palettes.toList[i]? with
  | some p => .ok p s
  | none => raise (.romHole i) s

/-- `P[i]`; outside the palette the model stops (log 11). -/
def colorAt (p : Palette) (i : Nat) (s : State) : Flow Color :=
  match p.colors.toList[i]? with
  | some c => .ok c s
  | none => raise (.romHole i) s

/-- `LUT(v) = GAMMA[v]` (R150). -/
def lut (g : GammaTable) (v : Byte) : Byte :=
  g.entries[v.toNat]'(by rw [g.lawful.1]; exact v.isLt)

/-! ### The choice oracle (43_animation.md R214) -/

/-- `draw()`: the host's next draw, or a free one past the end of its list; the position advances (10_state.md R43;
log 7). -/
def draw (s : State) : Draw × State :=
  match s.draws with
  | d :: rest => (d, { s with draws := rest, drawPos := s.drawPos + 1 })
  | [] => (Config.draw s.drawPos, { s with drawPos := s.drawPos + 1 })

end Sys2Proof.Machine
end

