-- ==== Sys2Proof/Machine/Flags.lean ====
section
/-! DEFINITION. The status flag `lerping` and the animation fields that change with it (10_state.md R29 to R32): every write
of them is one of these (43_animation.md R200). -/

namespace Sys2Proof.Machine

/-- `begun` (10_state.md R27): the animation fields have values. -/
def State.begun (s : State) : Bool := s.anim.isSome

/-- The fields BEGIN sets: `lerping` is cleared (43_animation.md R204, R205). -/
def Anim.start (pal : Nat) : Anim := ⟨pal, 0, false, 0, []⟩

/-- `Advance()` in a palette of `len` colors (R203). -/
def Anim.advance (len : Nat) (a : Anim) : Anim :=
  { a with currentColor := (a.currentColor + 1) % len }

/-- A new sparkle cycle: the drawn set, and `lerping` is set (R210). -/
def Anim.newCycle (d : Draw) (a : Anim) : Anim := { a with active := d.groups, lerping := true }

/-- A crossfading tick's progress: +20, clamped at 100 (R209). -/
def Anim.progress (a : Anim) : Anim :=
  { a with lastLerp := min (a.lastLerp + Config.lerpStep) Config.lerpMax }

/-- The commit of a saturated crossfade: `lerping` is cleared (R209). -/
def Anim.commit (len : Nat) (a : Anim) : Anim :=
  { a.advance len with lerping := false, lastLerp := 0 }

/-- A crossfading tick after its progress: committed if saturated (R209). -/
def Anim.settle (len : Nat) (a : Anim) : Anim :=
  if a.lastLerp = Config.lerpMax then a.commit len else a

/-- The engine's tagged view (10_state.md R45). -/
inductive EngineView where
  | idle
  | crossfading (progress : Nat)
deriving DecidableEq, Repr

/-- R45's mapping; meaningful once `begun`. -/
def engineView (d : Descriptor) (a : Anim) : EngineView :=
  if a.lerping ∧ d.fade ∧ d.style = .sparkle then .crossfading a.lastLerp else .idle

end Sys2Proof.Machine
end

