-- ==== Sys2Proof/Machine/Operands.lean ====
section
/-! DEFINITION. Operand forms and configuration reads: color components, the pixel order (10_state.md R34), the address lines
of a position (40_display.md R123), the active chips and a chip index (41_led_driver.md R165, R157). -/

namespace Sys2Proof.Machine

/-- `chan(c, X)` (00_scope.md R16). -/
def chan (c : Color) : Component → Byte
  | .red => c.extractLsb' 16 8
  | .green => c.extractLsb' 8 8
  | .blue => c.extractLsb' 0 8

/-- A legal pixel order: slot `j` carries the `j`-th component (R154). -/
structure PixelOrder where
  slot0 : Component
  slot1 : Component
  slot2 : Component
deriving DecidableEq, Repr

/-- The order a stored string spells: six legal values, any other is illegal (R34). -/
def pixelOrder (stored : Option String) : Option PixelOrder :=
  match stored with
  | none => none
  | some v =>
    if v = "RGB" then some ⟨.red, .green, .blue⟩
    else if v = "RBG" then some ⟨.red, .blue, .green⟩
    else if v = "GRB" then some ⟨.green, .red, .blue⟩
    else if v = "GBR" then some ⟨.green, .blue, .red⟩
    else if v = "BRG" then some ⟨.blue, .red, .green⟩
    else if v = "BGR" then some ⟨.blue, .green, .red⟩
    else none

/-- The index of a component in the order (R155). -/
def PixelOrder.slotOf (o : PixelOrder) (x : Component) : Nat :=
  if o.slot0 = x then 0 else if o.slot1 = x then 1 else 2

/-- Reads `cfg.pixel_order`; an illegal value raises `PixelOrder` (R154). -/
def readPixelOrder (s : State) : Flow PixelOrder :=
  match pixelOrder s.cfg.pixelOrder with
  | some o => .ok o s
  | none => raise (.pixelOrder s.cfg.pixelOrder) s

/-! ### Configuration values; a missing key reads as zero or false (R33, R252) -/

def Cfg.batterySaverOn (c : Cfg) : Bool := c.batterySaver.getD false
def Cfg.overdriveOn (c : Cfg) : Bool := c.overdrive.getD false
def Cfg.fps (c : Cfg) : Int := c.animationFps.getD 0
def Cfg.glitchOn (c : Cfg) : Bool := c.glitch.getD false
def Cfg.flagIndex (c : Cfg) : Nat := c.flag.getD 0
def Cfg.pronounIndex (c : Cfg) : Nat := c.pronouns.getD 0

/-! ### Chips (41_led_driver.md R165) -/

/-- `ACTIVE`: the first attached chip only, under battery saver. -/
def State.activeChips (s : State) : List Chip :=
  if s.cfg.batterySaverOn then s.launch.attached.take 1 else s.launch.attached

/-- The chip an index operand names; an index past the list raises `NoChip` (30_encoding.md R96, R157). -/
def readChip (index : BitVec 4) (s : State) : Flow Chip :=
  match s.activeChips[index.toNat]? with
  | some c => .ok c s
  | none => raise (.noChip index) s

/-! ### Positions (40_display.md R123, R129) -/

/-- `ADDR_MAP(pos)`; a position past 4 raises `IllegalPosition`. -/
def readPosition (pos : BitVec 3) (s : State) : Flow AddrLines :=
  match s.launch.params.addrMap[pos.toNat]? with
  | some l => .ok l s
  | none => raise (.illegalPosition pos) s

/-- The write-enable pin of a display (10_state.md R24). -/
def writeEnable : Disp → Pin
  | .d0 => .weN0
  | .d1 => .weN1

end Sys2Proof.Machine
end

