-- ==== Sys2Proof/Machine/Interpolator.lean ====
section
/-! DEFINITION. Color Interpolator: `Lerp` and LERP (42_interpolator.md). -/

namespace Sys2Proof.Machine

/-- `Round(n, 100)` (R180, R182): the quotient rounded as `LERP_ROUND` says, exact when 100 divides `n` (log 12). -/
def roundPercent (r : LerpRound) (n : Int) : Int :=
  match r with
  | .floor => n / 100
  | .halfUp => if n % 100 ≥ 50 then n / 100 + 1 else n / 100
  | .halfEven =>
    if n % 100 > 50 ∨ (n % 100 = 50 ∧ (n / 100) % 2 = 1) then n / 100 + 1 else n / 100
  | .truncate => if n < 0 ∧ n % 100 ≠ 0 then n / 100 + 1 else n / 100
  | .other id => if n % 100 ≠ 0 ∧ Config.freeRoundUp id n then n / 100 + 1 else n / 100

/-- One lane: `a + (b - a) * k / 100` in exact integers, rounded (R180). -/
def lerpLane (r : LerpRound) (a b : Byte) (k : Nat) : Int :=
  roundPercent r (100 * (a.toNat : Int) + ((b.toNat : Int) - (a.toNat : Int)) * (k : Int))

/-- `Lerp(A, B, k)` (R180, R186): three independent lanes, not clamped (R181). -/
def blend (r : LerpRound) (a b : Color) (k : Nat) : Triad where
  red := lerpLane r (chan a .red) (chan b .red) k
  green := lerpLane r (chan a .green) (chan b .green) k
  blue := lerpLane r (chan a .blue) (chan b .blue) k

/-- `Pack(v)` (R183), for lanes in 0..255. -/
def pack (t : Triad) : Color :=
  BitVec.ofInt 8 t.red ++ BitVec.ofInt 8 t.green ++ BitVec.ofInt 8 t.blue

/-- The triple of a color's own channels. -/
def unpack (c : Color) : Triad :=
  ⟨(chan c .red).toNat, (chan c .green).toNat, (chan c .blue).toNat⟩

/-- LERP (R184). -/
def execLerp (k : Byte) (ca cb : Color) (s : State) : Host.Outcome State Fault Refusal :=
  runCommand s fun s => .ok () (s.answer (.triad (blend s.launch.params.lerpRound ca cb k.toNat)))

end Sys2Proof.Machine
end

