-- ==== Sys2Proof/Machine/LedDriver.lean ====
section
/-! DEFINITION. LED Register Driver: GAMMA, SET_LED, LED_INIT, LED_SELFTEST, and the operations BEGIN and BLIT share
(41_led_driver.md). -/

namespace Sys2Proof.Machine

/-- The transaction of slot `j` of a channel group: the zero phase register, then the corrected intensity (R155). -/
def slotTxn (g : GammaTable) (chip : BusAddr) (base : Nat) (color : Color) (j : Nat) (x : Component) :
    Txn :=
  ⟨chip, BitVec.ofNat 8 (base + 2 * j), [0x00, lut g (chan color x)]⟩

/-- The slots of a group in the order they are written (R155): by slot, or R, G, B. -/
def slotOrder (layout : SlotLayout) (o : PixelOrder) : List (Nat × Component) :=
  match layout with
  | .slot => [(0, o.slot0), (1, o.slot1), (2, o.slot2)]
  | .component => [(o.slotOf .red, .red), (o.slotOf .green, .green), (o.slotOf .blue, .blue)]

/-- The slot of the last transaction: 2, or blue's (R155). -/
def lastSlot (layout : SlotLayout) (o : PixelOrder) : Nat :=
  match layout with
  | .slot => 2
  | .component => o.slotOf .blue

/-- `SetLed(chip, base, color)` (R155): the pixel order, then the register range (R158, R254), then three transactions;
the value is the register of the last. -/
def setLed (chip : BusAddr) (base : Nat) (color : Color) (s : State) : Flow Nat :=
  (readPixelOrder s).bind fun o s =>
    if base > 250 then raise (.registerRange base) s
    else
      (Flow.each (fun jx => emitTxn (slotTxn s.launch.gamma chip base color jx.1 jx.2))
        (slotOrder s.launch.params.slotLayout o) s).bind fun _ s =>
      .ok (base + 2 * lastSlot s.launch.params.slotLayout o) s

/-- `Blank(chip)` (R159). -/
def blankChip (c : Chip) (s : State) : Flow Unit := emitGroup c.addr c.blankTxns s

/-- The ceiling writes `cfg.overdrive` selects (R160, D16). -/
def ceilingOf (c : Chip) (overdrive : Bool) : TxnGroup :=
  if overdrive then c.ceilTxnsOverdrive else c.ceilTxns

/-- `Init(chip)` (R160): reset, scale, blank, ceiling, and the mode switch last. -/
def initChip (c : Chip) (s : State) : Flow Unit :=
  (emitGroup c.addr c.resetTxns s).bind fun _ s =>
  (emitGroup c.addr c.scaleTxns s).bind fun _ s =>
  (blankChip c s).bind fun _ s =>
  (emitGroup c.addr (ceilingOf c s.cfg.overdriveOn) s).bind fun _ s =>
  emitGroup c.addr c.normalTxns s

/-- One window of the self-test and the delay after it (R163). -/
def testWindow (c : Chip) (w : Window) (s : State) : Flow Unit :=
  (emitGroup c.addr w.writes s).bind fun _ s => .ok () (emitDelay s.launch.params.selfTestDelayMs s)

/-- `SelfTest(chip)` (R163). -/
def selfTestChip (c : Chip) (s : State) : Flow Unit :=
  (Flow.each (testWindow c) c.selfTest s).bind fun _ s => blankChip c s

/-- GAMMA (R153). -/
def execGamma (v : Byte) (s : State) : Host.Outcome State Fault Refusal :=
  runCommand s fun s => .ok () (s.answer (.intensity (lut s.launch.gamma v)))

/-- SET_LED (R157). -/
def execSetLed (chip : BitVec 4) (base : Byte) (color : Color) (s : State) :
    Host.Outcome State Fault Refusal :=
  runCommand s fun s =>
    (readChip chip s).bind fun c s =>
    (setLed c.addr base.toNat color s).bind fun r s =>
    .ok () (s.answer (.register (BitVec.ofNat 8 r)))

/-- LED_INIT (R161). -/
def execLedInit (chip : BitVec 4) (s : State) : Host.Outcome State Fault Refusal :=
  runCommand s fun s => (readChip chip s).bind initChip

/-- LED_SELFTEST (R164). -/
def execLedSelftest (chip : BitVec 4) (s : State) : Host.Outcome State Fault Refusal :=
  runCommand s fun s => (readChip chip s).bind selfTestChip

end Sys2Proof.Machine
end

