-- ==== Sys2Proof/Machine/Animation.lean ====
section
/-! DEFINITION. Animation Engine: BEGIN, STEP, BLIT (43_animation.md). -/

namespace Sys2Proof.Machine

/-! ### Blit (R215) -/

/-- One entry under `PerCall`: every call's register threads into the next (R215). -/
def sendPerCall (c : Color) : List Chip → Nat → State → Flow Nat
  | [], base, s => .ok base s
  | chip :: rest, base, s =>
    (setLed chip.addr base c s).bind fun r s => sendPerCall c rest (r + Config.nextOffset) s

/-- One entry under `PerEntry`: every chip gets the same base, and the last call's register gives the next (R215). -/
def sendPerEntry (c : Color) (base : Nat) : List Chip → Nat → State → Flow Nat
  | [], next, s => .ok next s
  | chip :: rest, _, s =>
    (setLed chip.addr base c s).bind fun r s => sendPerEntry c base rest (r + Config.nextOffset) s

/-- One buffer entry to every active chip; the value is the next base (R215). -/
def sendEntry (c : Color) (base : Nat) (s : State) : Flow Nat :=
  match s.launch.params.blitThreading with
  | .perCall => sendPerCall c s.activeChips base s
  | .perEntry => sendPerEntry c base s.activeChips base s

/-- Drains up to `n` entries, oldest first (R215). -/
def drain : Nat → Nat → State → Flow Unit
  | 0, _, s => .ok () s
  | n + 1, base, s =>
    match bufPop s with
    | none => .ok () s
    | some (c, s) => (sendEntry c base s).bind fun base s => drain n base s

/-- `Blit()` (R215): the whole buffer, from `FIRST_BASE`. -/
def blitBuffer (s : State) : Flow Unit := drain s.buf.length s.launch.params.firstBase.toNat s

/-! ### Frames (R201, R202) -/

/-- `Fill(c)` (R201). -/
def fill (c : Color) (s : State) : State := pushFrame (fun _ => c) s

/-- `SparkleFill(c)` for an active set (R202). -/
def sparkleFill (active : List Group) (c : Color) (s : State) : State :=
  pushFrame (fun g => if g ∈ active then c else black) s

/-! ### BEGIN (R204) -/

/-- `for chip in ACTIVE: Blank(chip)` (R204). -/
def blankAll (s : State) : Flow Unit := Flow.each blankChip s.activeChips s

/-- The flat frame of BEGIN: `Fill(P[0]); Blit()` (R204). -/
def flatFrame (c : Color) (s : State) : Flow Unit := blitBuffer (fill c s)

/-- BEGIN's frame and blanking, in the order `BEGIN_ORDER` says (R204, R205). -/
def renderBegin (c : Color) (s : State) : Flow Unit :=
  match s.launch.params.beginOrder with
  | .renderThenBlank => (flatFrame c s).bind fun _ s => blankAll s
  | .blankThenRender => (blankAll s).bind fun _ s => flatFrame c s

/-- BEGIN (R204, R221). -/
def execAnimBegin (idx : BitVec 16) (s : State) : Host.Outcome State Fault Refusal :=
  runCommand s fun s =>
    match s.launch.palettes.toList[idx.toNat]? with
    | none => raise (.badPalette idx) s
    | some p => renderBegin p.colors.head { s with anim := some (.start idx.toNat), buf := [] }

/-! ### STEP (R206) -/

/-- `StepFlat()` (R207), for the styles Fade and Sweep (R208). -/
def stepFlat (p : Palette) (a : Anim) (s : State) : Flow Unit :=
  let a' := a.advance p.colors.size
  (colorAt p a'.currentColor s).bind fun c s => .ok () (fill c { s with anim := some a' })

/-- The color a crossfade blends toward (R209). -/
def crossfadeTarget (p : Palette) (a : Anim) (s : State) : Flow Color :=
  if p.desc.mix then colorAt p ((a.currentColor + 1) % p.colors.size) s else .ok black s

/-- `StepCrossfade()` (R209). -/
def stepCrossfade (p : Palette) (a : Anim) (s : State) : Flow Unit :=
  let a' := a.progress
  (crossfadeTarget p a' s).bind fun target s =>
  (colorAt p a'.currentColor s).bind fun c s =>
  .ok () (sparkleFill a'.active (pack (blend s.launch.params.lerpRound c target a'.lastLerp))
    { s with anim := some (a'.settle p.colors.size) })

/-- `StepNewSparkle()` (R210). -/
def stepNewSparkle (p : Palette) (a : Anim) (s : State) : Flow Unit :=
  let d := (draw s).1
  let a' := if p.desc.fade then a.newCycle d else (a.newCycle d).advance p.colors.size
  (colorAt p a'.currentColor (draw s).2).bind fun c s =>
  .ok () (sparkleFill a'.active c { s with anim := some a' })

/-- The branch of STEP the descriptor's style selects (R206). -/
def stepStyle (p : Palette) (a : Anim) (s : State) : Flow Unit :=
  match p.desc.style with
  | .fade => stepFlat p a s
  | .sweep => stepFlat p a s
  | .sparkle => if a.lerping && p.desc.fade then stepCrossfade p a s else stepNewSparkle p a s
  | .unknown tag => .ok () (emitDiag tag s)

/-- STEP (R206, R213, R219). -/
def execAnimStep (s : State) : Host.Outcome State Fault Refusal :=
  runCommand s fun s =>
    match s.anim with
    | none => raise .noPalette s
    | some a =>
      (romRead a.pal s).bind fun p s => (stepStyle p a s).bind fun _ s => blitBuffer s

/-- BLIT (R216). -/
def execBlit (s : State) : Host.Outcome State Fault Refusal := runCommand s blitBuffer

end Sys2Proof.Machine
end

