-- ==== Sys2Proof/Machine/Display.lean ====
section
/-! DEFINITION. Character Encoder and Display Driver: ENCODE, PRINT_CHAR, CLEAR_DISPLAY (40_display.md). -/

namespace Sys2Proof.Machine

/-- `enc(code)` (40_display.md R121): the mask to 7 bits, then bits 5 and 6 swapped. -/
def enc (code : Byte) : Code :=
  code.extractLsb' 5 1 ++ code.extractLsb' 6 1 ++ code.extractLsb' 0 5

/-- `dec(p) = enc(p)` on 7-bit values (R133). -/
def dec (p : Code) : Code := enc (p.setWidth 8)

/-- The pin levels of one character write, in order (R125): address, seven serial bits least significant first, write
pulse. -/
def printPins (d : Disp) (l : AddrLines) (char : Byte) : List (Pin × Level) :=
  [(.a0, l.a0), (.a1, l.a1)] ++
    (List.range Config.charBits).flatMap
      (fun i => [(.ser, (enc char).getLsbD i), (.sclk, true), (.sclk, false)]) ++
    [(writeEnable d, false), (.rclk, true), (.rclk, false), (writeEnable d, true)]

/-- `print_char` on a display (R125). -/
def printAt (d : Disp) (char : Byte) (pos : BitVec 3) (s : State) : Flow Unit :=
  (readPosition pos s).bind fun l s => .ok () (drivePins (printPins d l char) s)

/-- ENCODE (R122). -/
def execEncodeChar (char : Byte) (s : State) : Host.Outcome State Fault Refusal :=
  runCommand s fun s => .ok () (s.answer (.pattern (enc char)))

/-- PRINT_CHAR (R124, R125, R129). -/
def execPrintChar (disp : Disp) (pos : BitVec 3) (char : Byte) (s : State) :
    Host.Outcome State Fault Refusal :=
  runCommand s (printAt disp char pos)

/-- The positions CLEAR_DISPLAY blanks, ascending (R127, D41). -/
def clearPositions : List (BitVec 3) := [0, 1, 2, 3, 4]

/-- CLEAR_DISPLAY (R127): `print_char(' ', pos)` for every position. -/
def execClearDisplay (disp : Disp) (s : State) : Host.Outcome State Fault Refusal :=
  runCommand s (Flow.each (printAt disp 0x20) clearPositions)

end Sys2Proof.Machine
end

