-- ==== Sys2Proof/Machine/Dispatch.lean ====
section
/-! DEFINITION. One arm per command, each a call of its meaning. -/

namespace Sys2Proof.Machine

def exec (i : Instr) (s : State) : Host.Outcome State Fault Refusal :=
  match i with
  | .encodeChar char => Sys2Proof.Machine.execEncodeChar char s
  | .printChar disp pos char => Sys2Proof.Machine.execPrintChar disp pos char s
  | .clearDisplay disp => Sys2Proof.Machine.execClearDisplay disp s
  | .gamma v => Sys2Proof.Machine.execGamma v s
  | .setLed chip base color => Sys2Proof.Machine.execSetLed chip base color s
  | .ledInit chip => Sys2Proof.Machine.execLedInit chip s
  | .ledSelftest chip => Sys2Proof.Machine.execLedSelftest chip s
  | .lerp k ca cb => Sys2Proof.Machine.execLerp k ca cb s
  | .animBegin idx => Sys2Proof.Machine.execAnimBegin idx s
  | .animStep => Sys2Proof.Machine.execAnimStep s
  | .blit => Sys2Proof.Machine.execBlit s

end Sys2Proof.Machine
end

