-- ==== Sys2Proof/Machine/Step.lean ====
section
/-! DEFINITION. One step: the host's next act on the block (10_state.md R21, 60_exceptions.md R250, R271). -/

namespace Sys2Proof.Machine

/-- Nothing runs after a fault (R250). With an empty list the block waits (log 4). A configuration change takes effect
between commands (R271). A word is decoded and executed, or raises `IllegalCommand` (30_encoding.md R103). -/
def step (s : State) : Host.Outcome State Fault Refusal :=
  match s.fault with
  | some f => .fault f
  | none =>
    match s.commands with
    | [] => .next s
    | .configure c :: rest => .next (s.configure c rest)
    | .command w :: rest =>
      match decode w with
      | .error why => illegalWord w why s
      | .ok i => exec i (s.takeCommand rest)

/-- `s` with the word of the `nbits` bits `w` as the host's next act, put before the acts already in the list, which all
stay behind it: how a word comes into a list that is not empty is DESIGN CHOICE (log 18). -/
def State.withFetchWord (s : State) (nbits w : Nat) : State :=
  { s with commands := .command (BitVec.ofNat 64 (w % 2 ^ nbits)) :: s.commands }

end Sys2Proof.Machine
end

