-- ==== Sys2Proof/Machine/DisplayRef.lean ====
section
/-! DEFINITION. The spec's reference model of the external shift register and displays (20_memory.md R82 to R84, D8): it
reads the block's pin events and is no part of the block's state (R61). -/

namespace Sys2Proof.Machine

/-- The external state: the last pin levels seen, the shift register (newest bit first, R82), the output latch (R83) and
the eight cells, cell `(d, 2*A1 + A0)` at place `4*d + 2*A1 + A0` (R84), each unknown until written. -/
structure Ref where
  pins : Pins
  sr : List Level
  q : Option Code
  cells : List (Option Code)
deriving DecidableEq, Repr

/-- Why the reference model stops: it would read what was never driven or shifted (10_state.md R26; log 19). -/
inductive RefFault where
  /-- SCLK rises while SER has no value (R82). Safe. -/
  | serUndriven
  /-- RCLK rises before 7 bits were shifted (R83; log 19). Safe. -/
  | shiftShort
  /-- A write enable rises before the first latch (R84; log 19). Safe. -/
  | latchEmpty
  /-- A write enable rises while A0 or A1 has no value (R84). Safe. -/
  | addressUndriven
deriving DecidableEq, Repr

/-- Nothing seen, nothing shifted, every cell unknown (10_state.md R44). -/
def Ref.initial : Ref := ⟨.undriven, [], none, List.replicate 8 none⟩

/-- `Q[i] <- SR[6 - i]` (R83). -/
def latchOf : List Level → Option Code
  | s0 :: s1 :: s2 :: s3 :: s4 :: s5 :: s6 :: _ =>
    some (BitVec.ofBool s0 ++ BitVec.ofBool s1 ++ BitVec.ofBool s2 ++ BitVec.ofBool s3 ++
      BitVec.ofBool s4 ++ BitVec.ofBool s5 ++ BitVec.ofBool s6)
  | _ => none

/-- The place of cell `(d, 2*A1 + A0)` (R84). -/
def cellPlace (d : Disp) (l : AddrLines) : Nat := 4 * d.toBit.toNat + 2 * l.a1.toNat + l.a0.toNat

/-- SCLK rises: SER is shifted in (R82). -/
def refShift (r : Ref) : Except RefFault Ref :=
  match r.pins.ser with
  | some b => .ok { r with sr := b :: r.sr }
  | none => .error .serUndriven

/-- RCLK rises: the last seven bits are latched (R83). -/
def refLatch (r : Ref) : Except RefFault Ref :=
  match latchOf r.sr with
  | some q => .ok { r with q := some q }
  | none => .error .shiftShort

/-- A display's write enable rises: the addressed cell takes `dec(Q)` (R84). -/
def refStore (d : Disp) (r : Ref) : Except RefFault Ref :=
  match r.q, r.pins.a1, r.pins.a0 with
  | none, _, _ => .error .latchEmpty
  | some q, some a1, some a0 =>
    .ok { r with cells := r.cells.set (cellPlace d ⟨a1, a0⟩) (some (dec q)) }
  | some _, _, _ => .error .addressUndriven

/-- What an edge does, `old` being the pin's level before it: SCLK and RCLK rise from 0 or from no value, a write enable
rises from 0 (R82 to R84). -/
def refEdge (p : Pin) (old : Option Level) (r : Ref) : Except RefFault Ref :=
  match p with
  | .sclk => if old = some true then .ok r else refShift r
  | .rclk => if old = some true then .ok r else refLatch r
  | .weN0 => if old = some false then refStore .d0 r else .ok r
  | .weN1 => if old = some false then refStore .d1 r else .ok r
  | .a0 => .ok r
  | .a1 => .ok r
  | .ser => .ok r

/-- One event of the trace; only pin events reach the displays (R75). -/
def refStep (r : Ref) : Event → Except RefFault Ref
  | .pin p true => refEdge p (r.pins.level p) { r with pins := r.pins.drive p true }
  | .pin p false => .ok { r with pins := r.pins.drive p false }
  | .txn _ => .ok r
  | .diag _ => .ok r
  | .delay _ => .ok r

/-- The events in trace order (R75). -/
def refRun (r : Ref) : List Event → Except RefFault Ref
  | [] => .ok r
  | e :: es =>
    match refStep r e with
    | .ok r' => refRun r' es
    | .error f => .error f

end Sys2Proof.Machine
end

