-- ==== Sys2Proof/Machine/HostSide.lean ====
section
/-! DEFINITION. The host-side contracts the spec records around the block: ticks, debounce, flag and pronoun buttons
(60_exceptions.md R257, R258, R263, R264, R269, R270), handlers served one after another (R259), and the boot program
(70_reset_and_hazards.md R292). Each makes the host's acts; none is state of the block (log 20). Where the spec gives the
host no act, the function answers `none` (log 24). -/

namespace Sys2Proof.Machine

/-- The host issues a command. -/
def issue (i : Instr) : HostAct := .command (encode i)

/-! ### The animation tick (R258, R263) -/

/-- An accepted tick is answered by exactly one STEP (R258). -/
def tickActs : List HostAct := [issue .animStep]

/-- The tick period `1000 / fps` in ms; no tick at 0 (R263, D39), nor at a negative rate (log 20). -/
def tickPeriodMs (c : Cfg) : Option Rat := if 0 < c.fps then some (1000 / (c.fps : Rat)) else none

/-! ### Debounce (R264) -/

/-- One button: its cooldown and its next eligible time, in whole ms (log 20, log 23). -/
structure Debouncer where
  cooldown : Nat
  nextEligible : Nat
deriving DecidableEq, Repr

/-- A button that has seen no edge: the first one is accepted (R264, D37). -/
def Debouncer.fresh (cooldown : Nat) : Debouncer := ⟨cooldown, 0⟩

/-- A button of a launch: its own `repeat`, else the launch's `COOLDOWN_MS` ("configurable per instance", R264). -/
def Debouncer.ofLaunch (l : Launch) (own : Option Nat) : Debouncer := .fresh (own.getD l.params.cooldownMs)

/-- A raw edge at time `t`: discarded within the window, else accepted and the window restarted (R264). -/
def Debouncer.edge (t : Nat) (d : Debouncer) : Debouncer × Bool :=
  if t < d.nextEligible then (d, false) else ({ d with nextEligible := t + d.cooldown }, true)

/-- How many of the edges invoke the callback. -/
def Debouncer.count (d : Debouncer) : List Nat → Nat
  | [] => 0
  | t :: ts => (d.edge t).2.toNat + (d.edge t).1.count ts

/-! ### Selection (R269, R270) -/

/-- The next index, wrapping (R269, R270). -/
def nextIndex (n i : Nat) : Nat := (i + 1) % n

/-- The previous index, wrapping (R269, R270). -/
def prevIndex (n i : Nat) : Nat := (i + n - 1) % n

/-- The host's `BEGIN i` (R269, R292). An index past the operand's 16 bits goes out as the largest operand, which raises
`BadPalette` as `i` itself would, provided the launch has no palette at that operand; else no word can name palette `i`,
and there is none (log 24). -/
def beginFlag (l : Launch) (i : Nat) : Option HostAct :=
  if i < 2 ^ 16 then some (issue (.animBegin (BitVec.ofNat 16 i)))
  else if l.palettes.size < 2 ^ 16 then some (issue (.animBegin 0xFFFF))
  else none

/-- The host persists a flag index and issues BEGIN (R269). -/
def selectFlag (l : Launch) (i : Nat) (c : Cfg) : Option (List HostAct) :=
  (beginFlag l i).map fun begin => [.configure { c with flag := some i }, begin]

/-- flag-next (R269). -/
def flagNext (l : Launch) (c : Cfg) : Option (List HostAct) :=
  selectFlag l (nextIndex l.palettes.size c.flagIndex) c

/-- flag-prev (R269). -/
def flagPrev (l : Launch) (c : Cfg) : Option (List HostAct) :=
  selectFlag l (prevIndex l.palettes.size c.flagIndex) c

/-- "2-element string pairs (max 5 characters each), one element per physical display" (R270). -/
structure PronounPair where
  first : List Byte
  second : List Byte
  short : first.length ≤ Config.npos ∧ second.length ≤ Config.npos
deriving DecidableEq, Repr

/-- One display: cleared, then one PRINT_CHAR per character (R270, D38). -/
def renderWord (d : Disp) (chars : List Byte) : List HostAct :=
  issue (.clearDisplay d) ::
    chars.zipIdx.map fun (c, k) => issue (.printChar d (BitVec.ofNat 3 k) c)

/-- Both displays (R270, D38). -/
def renderPair (p : PronounPair) : List HostAct := renderWord .d0 p.first ++ renderWord .d1 p.second

/-- The host persists a pronoun index and re-renders (R270); `none` where the list has no pair there, which is only when it
is empty (log 24). -/
def selectPronouns (pairs : List PronounPair) (j : Nat) (c : Cfg) : Option (List HostAct) :=
  pairs[j]?.map fun p => .configure { c with pronouns := some j } :: renderPair p

/-- pronoun-next (R270). -/
def pronounNext (pairs : List PronounPair) (c : Cfg) : Option (List HostAct) :=
  selectPronouns pairs (nextIndex pairs.length c.pronounIndex) c

/-- pronoun-prev (R270). -/
def pronounPrev (pairs : List PronounPair) (c : Cfg) : Option (List HostAct) :=
  selectPronouns pairs (prevIndex pairs.length c.pronounIndex) c

/-- The four buttons (R257). -/
inductive Button where
  | pronounPrev
  | pronounNext
  | flagPrev
  | flagNext
deriving DecidableEq, Repr

/-- What an accepted button press makes the host do (R269, R270). -/
def buttonActs (l : Launch) (pairs : List PronounPair) (c : Cfg) : Button → Option (List HostAct)
  | .pronounPrev => pronounPrev pairs c
  | .pronounNext => pronounNext pairs c
  | .flagPrev => flagPrev l c
  | .flagNext => flagNext l c

/-! ### Handlers, one after another (R259) -/

/-- The four debounced buttons (R257, R264). -/
structure Buttons where
  pronounPrev : Debouncer
  pronounNext : Debouncer
  flagPrev : Debouncer
  flagNext : Debouncer
deriving DecidableEq, Repr

/-- Each button with the launch's default cooldown, before its first edge (R264). -/
def Buttons.ofLaunch (l : Launch) : Buttons :=
  ⟨.ofLaunch l none, .ofLaunch l none, .ofLaunch l none, .ofLaunch l none⟩

def Buttons.get (bs : Buttons) : Button → Debouncer
  | .pronounPrev => bs.pronounPrev
  | .pronounNext => bs.pronounNext
  | .flagPrev => bs.flagPrev
  | .flagNext => bs.flagNext

def Buttons.set (bs : Buttons) (b : Button) (d : Debouncer) : Buttons :=
  match b with
  | .pronounPrev => { bs with pronounPrev := d }
  | .pronounNext => { bs with pronounNext := d }
  | .flagPrev => { bs with flagPrev := d }
  | .flagNext => { bs with flagNext := d }

/-- What the host remembers between two handlers: the stored configuration (R271) and its buttons. -/
structure HostMemory where
  cfg : Cfg
  buttons : Buttons
deriving DecidableEq, Repr

/-- What the host serves: an animation tick it accepts (R258), a raw edge of a button at a time in ms (R264), a change of the
stored configuration from elsewhere (R271). Glitch ticks are left out: R261 gives them no command. -/
inductive Trigger where
  | tick
  | edge (b : Button) (t : Nat)
  | store (c : Cfg)
deriving DecidableEq, Repr

/-- The configuration after some acts of the host: the last one stored. -/
def cfgAfter (c : Cfg) : List HostAct → Cfg
  | [] => c
  | .configure c' :: rest => cfgAfter c' rest
  | .command _ :: rest => cfgAfter c rest

/-- One handler, run to its end: its acts, issued together (R259), and what the host remembers after it. No tick comes at a
rate of 0 (R263, D39); a discarded edge makes no act (R264). -/
def handle (l : Launch) (pairs : List PronounPair) (h : HostMemory) : Trigger → Option (List HostAct × HostMemory)
  | .tick => some (if 0 < h.cfg.fps then tickActs else [], h)
  | .edge b t =>
    match (h.buttons.get b).edge t with
    | (_, false) => some ([], h)
    | (d, true) => (buttonActs l pairs h.cfg b).map fun acts =>
      (acts, ⟨cfgAfter h.cfg acts, h.buttons.set b d⟩)
  | .store c => some ([.configure c], { h with cfg := c })

/-- Handlers run to completion one after another, in the order given: the acts of each together, each reading the
configuration the one before it left (R259). Any order of triggers and any skipped ticks are some list (R258, R259,
70_reset_and_hazards.md R299). -/
def serve (l : Launch) (pairs : List PronounPair) (h : HostMemory) :
    List Trigger → Option (List HostAct × HostMemory)
  | [] => some ([], h)
  | x :: xs =>
    match handle l pairs h x with
    | none => none
    | some (acts, h') => (serve l pairs h' xs).map fun r => (acts ++ r.1, r.2)

/-! ### Boot (70_reset_and_hazards.md R292) -/

/-- The chip indices a command can name: `0..len(ACTIVE)-1`, of which the 4-bit field reaches 16 (30_encoding.md R96;
log 20). -/
def chipIndices (l : Launch) (c : Cfg) : List (BitVec 4) :=
  (List.range (min 16 (if c.batterySaverOn then l.attached.take 1 else l.attached).length)).map (BitVec.ofNat 4)

/-- Steps 1 to 4 of R292 (D43): LED_INIT of every active chip, perhaps LED_SELFTEST of each, the pronoun pair, BEGIN. `none`
where the stored index names no pair, of which step 3 says nothing, and where no word can name the flag (log 24). -/
def bootActs (l : Launch) (c : Cfg) (pairs : List PronounPair) (selfTest : Bool) : Option (List HostAct) :=
  match pairs[c.pronounIndex]?, beginFlag l c.flagIndex with
  | some p, some begin => some <|
    (chipIndices l c).map (fun i => issue (.ledInit i)) ++
      (if selfTest then (chipIndices l c).map (fun i => issue (.ledSelftest i)) else []) ++
      renderPair p ++ [begin]
  | _, _ => none

/-- The host's whole list: boot, then, with the tick and the fresh buttons attached (step 5 of R292), the handlers of `xs`
(R259). -/
def hostActs (l : Launch) (c : Cfg) (pairs : List PronounPair) (selfTest : Bool) (xs : List Trigger) :
    Option (List HostAct) :=
  match bootActs l c pairs selfTest, serve l pairs ⟨c, .ofLaunch l⟩ xs with
  | some boot, some r => some (boot ++ r.1)
  | _, _ => none

/-- The block at reset with the list of a host that boots it and then serves `xs` (70_reset_and_hazards.md R290, R292). -/
def State.hosted (l : Launch) (c : Cfg) (pairs : List PronounPair) (selfTest : Bool) (xs : List Trigger) :
    Option State :=
  (hostActs l c pairs selfTest xs).map fun acts => { State.launched l c with commands := acts }

end Sys2Proof.Machine
end

