-- ==== Sys2Proof/Safety.lean ====
section
/-! DEFINITION. What counts as a good state and a good run: the invariants the spec states of the block's fields, and the
ends of a run (60_exceptions.md R272). -/

namespace Sys2Proof.Machine

/-- The animation fields fit the palette ROM and their ranges: `pal < N` (10_state.md R28, 43_animation.md R221),
`current_color < len(P)` (10_state.md R29), `last_lerp` a multiple of 20 up to 100 (R31), the active set ascending and of
size 0 or 3 (R32), of size 3 while `lerping` (43_animation.md R210). -/
def Anim.Fits (l : Launch) (a : Anim) : Prop :=
  (∃ p, l.palettes.toList[a.pal]? = some p ∧ a.currentColor < p.colors.size) ∧
    a.lastLerp ≤ Config.lerpMax ∧ a.lastLerp % Config.lerpStep = 0 ∧
    a.active.Pairwise (· < ·) ∧ (a.active.length = 0 ∨ a.active.length = Config.nsparkle) ∧
    (a.lerping = true → a.active.length = Config.nsparkle)

/-- The invariant of the block: the animation fields fit, the Channel Buffer holds at most 6 entries (R37) and is empty
between commands of a run without fault (43_animation.md R212), and the model's own fault was not raised (log 11). -/
structure State.Inv (s : State) : Prop where
  animFits : ∀ a, s.anim = some a → a.Fits s.launch
  bufBound : s.buf.length ≤ Config.bufCap
  bufEmpty : s.fault = none → s.buf = []
  inRom : ∀ i, s.fault ≠ some (.romHole i)

/-- A run has ended successfully: the host's list is exhausted with no fault (60_exceptions.md R272). -/
def State.endedWell (s : State) : Bool := s.commands.isEmpty && s.fault.isNone

/-- A run has ended in a fault (R272). -/
def State.endedInFault (s : State) : Bool := s.fault.isSome

/-- The next `n` transactions are answered `ok` (R253). -/
def State.BusOk (n : Nat) (s : State) : Prop := ∀ a ∈ s.answers.take n, a = .ok

/-- The state after the transactions `ts` went out, every one answered `ok`: their events appended, their answers used up,
nothing else changed (R75, R253). -/
def State.sent (ts : List Txn) (s : State) : State :=
  { s with trace := s.trace ++ ts.map .txn, answers := s.answers.drop ts.length }

/-- How many transactions a list of events holds. -/
def txnCount (es : List Event) : Nat :=
  es.countP fun e =>
    match e with
    | .txn _ => true
    | _ => false

/-- What no command changes: the launch constants (10_state.md R42), the configuration (R33), the host's list and its
position (R21). -/
structure State.SameInputs (s t : State) : Prop where
  launch : t.launch = s.launch
  cfg : t.cfg = s.cfg
  commands : t.commands = s.commands
  index : t.index = s.index

/-- The address of a chip of the active list (41_led_driver.md R165). -/
def State.IsActive (s : State) (a : BusAddr) : Prop := ∃ c ∈ s.activeChips, c.addr = a

/-- Commands one after another, as the host issues them (R9), up to the first that does not answer a next state. -/
def execAll : List Instr → State → Host.Outcome State Fault Refusal
  | [], s => .next s
  | i :: rest, s =>
    match exec i s with
    | .next t => execAll rest t
    | .fault f => .fault f
    | .refused r => .refused r

/-! ### What a frame sends, in closed form (43_animation.md R215, R217; 41_led_driver.md R155, R156) -/

/-- The three transactions of one channel group, by `SLOT_LAYOUT` (R155). -/
def groupTxns (p : OpenParams) (g : GammaTable) (o : PixelOrder) (chip : BusAddr) (base : Nat) (c : Color) :
    List Txn :=
  match p.slotLayout with
  | .slot =>
    [⟨chip, BitVec.ofNat 8 (base + 0), [0x00, lut g (chan c o.slot0)]⟩,
     ⟨chip, BitVec.ofNat 8 (base + 2), [0x00, lut g (chan c o.slot1)]⟩,
     ⟨chip, BitVec.ofNat 8 (base + 4), [0x00, lut g (chan c o.slot2)]⟩]
  | .component =>
    [⟨chip, BitVec.ofNat 8 (base + 2 * o.slotOf .red), [0x00, lut g (chan c .red)]⟩,
     ⟨chip, BitVec.ofNat 8 (base + 2 * o.slotOf .green), [0x00, lut g (chan c .green)]⟩,
     ⟨chip, BitVec.ofNat 8 (base + 2 * o.slotOf .blue), [0x00, lut g (chan c .blue)]⟩]

/-- From one group's base to the next call's: the register of the last transaction, plus 4 (R155, R156). -/
def groupStride (p : OpenParams) (o : PixelOrder) : Nat :=
  (match p.slotLayout with
    | .slot => 4
    | .component => 2 * o.slotOf .blue) + Config.nextOffset

/-- The base of the call that sends entry `n` to the `j`-th of `k` active chips (R215): counted through every call under
`PerCall`, through the entries under `PerEntry`. -/
def callBase (p : OpenParams) (o : PixelOrder) (k n j : Nat) : Nat :=
  p.firstBase.toNat + groupStride p o *
    match p.blitThreading with
    | .perCall => k * n + j
    | .perEntry => n

/-- The transactions of a Blit of the colors `cs`: entries in FIFO order, chips in `ACTIVE` order, one group each
(R217). -/
def blitTxns (p : OpenParams) (g : GammaTable) (o : PixelOrder) (chips : List Chip) (cs : List Color) :
    List Txn :=
  cs.zipIdx.flatMap fun (c, n) =>
    chips.zipIdx.flatMap fun (chip, j) =>
      groupTxns p g o chip.addr (callBase p o chips.length n j) c

/-- No call of a Blit of `len` entries passes register 255 (41_led_driver.md R158). -/
def BlitFits (p : OpenParams) (o : PixelOrder) (k len : Nat) : Prop :=
  ∀ n < len, ∀ j < k, callBase p o k n j ≤ 250

/-- The transactions of a parameter list to a chip. -/
def groupOf (chip : BusAddr) (g : TxnGroup) : List Txn := g.toList.map (writeTxn chip)

/-- The transactions that blank every active chip, in order (43_animation.md R204). -/
def blankTxns (chips : List Chip) : List Txn := chips.flatMap fun c => groupOf c.addr c.blankTxns

/-- The colors of channel groups 1 to 6, which a frame leaves in an empty buffer (43_animation.md R218). -/
def frameOf (f : Group → Color) : List Color := [f 1, f 2, f 3, f 4, f 5, f 6]

/-- A state in which a frame of 6 entries goes out and `extra` transactions more: no fault, the buffer empty (R212), the
pixel order legal wherever a color is sent (70_reset_and_hazards.md R294), the registers in range, the bus answering
`ok`. -/
structure State.Ready (o : PixelOrder) (extra : Nat) (s : State) : Prop where
  running : s.fault = none
  empty : s.buf = []
  order : s.activeChips ≠ [] → pixelOrder s.cfg.pixelOrder = some o
  range : BlitFits s.launch.params o s.activeChips.length Config.bufCap
  bus : s.BusOk (3 * s.activeChips.length * Config.bufCap + extra)

/-- What a frame of the colors `cs` sends from `s` (43_animation.md R217). -/
def State.frameTxns (o : PixelOrder) (cs : List Color) (s : State) : List Txn :=
  blitTxns s.launch.params s.launch.gamma o s.activeChips cs

/-- The draw the oracle gives next (43_animation.md R214). -/
def State.nextDraw (s : State) : Draw :=
  match s.draws with
  | d :: _ => d
  | [] => Config.draw s.drawPos

end Sys2Proof.Machine
end

