-- ==== Sys2Proof/Certificates/Slice0/Obligations.lean ====
section
/-! DEFINITION. The statements for the provers, one per entry of OBLIGATIONS.json. A docstring names the rule of spec/ it
formalises, and every decision of the spec (D<n>) or log entry of the model it rests on. -/

open Sys2Proof Sys2Proof.Machine

/-! ### Encoding (30_encoding.md; the encoding is the spec's own decision D1, illegal words are D2) -/

/-- Every command, with every operand at every value, is read back from its word (R91, R100 to R102). -/
def Obligations.DecodeOfEncode : Prop := ∀ i : Instr, decode (encode i) = .ok i

/-- A word has one meaning: a word that decodes to a command is that command's word, every bit of it (R101, R104). -/
def Obligations.EncodeOfDecode : Prop := ∀ (w : Word) (i : Instr), decode w = .ok i → encode i = w

/-- No two rows of R101 match one word. -/
def Obligations.RowsAreDisjoint : Prop :=
  ∀ (w : Word) (o p : Opcode), o.selects w = true → p.selects w = true → o = p

/-- Which words are no command, and why (R102, R104, R105): an opcode outside R100 is `Unassigned`; a known opcode is
illegal exactly when a bit its row fixes differs, and then it is `ReservedBits`. -/
def Obligations.IllegalWordsAreClassified : Prop :=
  ∀ w : Word,
    (decode w = .error .unassigned ↔ ∀ o : Opcode, o.code ≠ field 56 8 w) ∧
    (decode w = .error .reservedBits ↔
      ∃ o : Opcode, o.code = field 56 8 w ∧ w &&& o.mask ≠ o.pattern)

/-- Words of 95_test_vectors.md section 8, written out there from R91. -/
def Obligations.SpecWordsDecode : Prop :=
  decode 0x0100000000000041 = .ok (.encodeChar 0x41) ∧
  decode 0x020104000000007A = .ok (.printChar .d1 4 0x7A) ∧
  decode 0x0300000000000000 = .ok (.clearDisplay .d0) ∧
  decode 0x1000000000000080 = .ok (.gamma 0x80) ∧
  decode 0x1120110000123456 = .ok (.setLed 2 0x11 0x123456) ∧
  decode 0x1210000000000000 = .ok (.ledInit 1) ∧
  decode 0x203CFF00000000FF = .ok (.lerp 60 0xFF0000 0x0000FF) ∧
  decode 0x3000000000000003 = .ok (.animBegin 3) ∧
  decode 0x0202000000000041 = .error .reservedBits ∧
  decode 0x0400000000000000 = .error .unassigned

/-- The assembler's lines and the commands agree (R108): a command's own line assembles to its word, and a line that
assembles is a command's line with that command's word, or `.word`; a line with an operand out of range is none. -/
def Obligations.AssemblerAgreesWithEncoding : Prop :=
  (∀ i : Instr, i.source.assemble = some (encode i)) ∧
  (∀ (l : SourceLine) (w : Word), l.assemble = some w →
    (∃ n, n < 2 ^ 64 ∧ l = .word n ∧ w = BitVec.ofNat 64 n) ∨ ∃ i : Instr, l = i.source ∧ w = encode i)

/-! ### The step (10_state.md R21, D40; 60_exceptions.md R250, D35) -/

/-- When the host's next act is a word that decodes to a command, the step is that command's execution after the host's
list has moved on by one (R21). -/
def Obligations.StepRunsTheDecodedCommand : Prop :=
  ∀ (s : State) (w : Word) (rest : List HostAct) (i : Instr),
    s.fault = none → s.commands = .command w :: rest → decode w = .ok i →
      step s = exec i { s with commands := rest, index := s.index + 1 }

/-- A word that is no command: `fault` records it and nothing else changes (30_encoding.md R103, D2; that the position
does not move is log 5). -/
def Obligations.IllegalWordChangesOnlyTheFault : Prop :=
  ∀ (s : State) (w : Word) (rest : List HostAct) (why : Illegal),
    s.fault = none → s.commands = .command w :: rest → decode w = .error why →
      step s = .next { s with fault := some (.illegalCommand w why) }

/-- After a fault no further command executes: the step and every command stop with that fault (R250, D35). -/
def Obligations.NothingRunsAfterAFault : Prop :=
  ∀ (s : State) (f : Fault), s.fault = some f → step s = .fault f ∧ ∀ i : Instr, exec i s = .fault f

/-- From a state without fault every command answers a next state: none is refused and none stops the block other than by
recording its fault there (R250, R302; log 1). -/
def Obligations.EveryCommandAnswers : Prop :=
  ∀ (i : Instr) (s : State), s.fault = none → ∃ t, exec i s = .next t

/-- The host may change the configuration between commands, and only that changes (60_exceptions.md R271, D34); with an
empty list the block waits (log 4, DESIGN CHOICE). -/
def Obligations.HostActsBetweenCommands : Prop :=
  ∀ (s : State) (c : Cfg) (rest : List HostAct), s.fault = none →
    (s.commands = .configure c :: rest → step s = .next { s with cfg := c, commands := rest }) ∧
    (s.commands = [] → step s = .next s)

/-- A command changes neither the launch constants, nor the configuration, nor the host's list and position (10_state.md
R42, R33, R21), and it clears the result port unless it sets it (R41, D42). -/
def Obligations.CommandsKeepInputs : Prop :=
  ∀ (i : Instr) (s t : State), exec i s = .next t →
    t.launch = s.launch ∧ t.cfg = s.cfg ∧ t.commands = s.commands ∧ t.index = s.index ∧
    (t.result ≠ none → (∃ c, i = .encodeChar c) ∨ (∃ v, i = .gamma v) ∨
      (∃ k a b, i = .lerp k a b) ∨ ∃ c b x, i = .setLed c b x)

/-! ### Reset (10_state.md R44, 70_reset_and_hazards.md R290, R291) -/

/-- R44's values, for every launch and every stored configuration (D9, D21, D35, D42; the animation fields are one value,
log 8), position 0 (R21), and the model's own fields: nothing issued (log 18), no answer given (log 6), no draw given and
the oracle at 0 (log 7, DESIGN CHOICE); `State.reset` is such a state with no key stored (log 2, log 10, DESIGN
CHOICE). -/
def Obligations.ResetValues : Prop :=
  (∀ (l : Launch) (c : Cfg), (State.launched l c).fault = none ∧
    (∀ p : Pin, (State.launched l c).pins.level p = none) ∧ (State.launched l c).begun = false ∧
    (State.launched l c).anim = none ∧ (State.launched l c).buf = [] ∧ (State.launched l c).trace = [] ∧
    (State.launched l c).result = none ∧ (State.launched l c).cfg = c ∧ (State.launched l c).launch = l ∧
    (State.launched l c).index = 0 ∧ (State.launched l c).commands = [] ∧ (State.launched l c).answers = [] ∧
    (State.launched l c).draws = [] ∧ (State.launched l c).drawPos = 0) ∧
  State.reset = State.launched Config.launch Cfg.missing

/-- Which data make a launch (R38; 41_led_driver.md R151, R166): it is accepted exactly when there is a palette, every palette
has a color, the gamma table is lawful and no bus address is repeated, and then the launch holds that data, a style the
spec does not name keeping its tag and a missing flag reading false (R39). -/
def Obligations.LaunchDataIsChecked : Prop :=
  ∀ d : LaunchData,
    match Launch.load d with
    | .ok l =>
      d.palettes ≠ [] ∧ l.palettes.toList.map (fun p => (p.colors.toList, p.desc)) =
        d.palettes.map (fun p => (p.colors, ⟨.ofString p.style, p.fade.getD false, p.mix.getD false⟩)) ∧
      l.gamma.entries = d.gamma ∧ l.attached = d.attached ∧ l.params = d.params
    | .error _ =>
      d.palettes = [] ∨ (∃ p ∈ d.palettes, p.colors = []) ∨ ¬ GammaLaws d.gamma ∨ ¬ (d.attached.map Chip.addr).Nodup

/-- The invariant of `State.Inv` holds after reset. -/
def Obligations.ResetMeetsInvariant : Prop := ∀ (l : Launch) (c : Cfg), (State.launched l c).Inv

/-- Every step keeps the invariant: `pal < N`, `current_color < len(P)` (43_animation.md R220), `last_lerp` a multiple of 20
up to 100 (10_state.md R31, R223), the active set of size 0 or 3 (R32), the buffer at most 6 and empty between commands
(R37, R212), and no index outside the palette ROM is ever read (log 11). -/
def Obligations.StepKeepsInvariant : Prop :=
  ∀ s t : State, s.Inv → step s = .next t → t.Inv

/-- Whatever the step: the trace only grows and the launch constants stay (10_state.md R40, R42, D1). -/
def Obligations.TraceOnlyGrows : Prop :=
  ∀ s t : State, step s = .next t → (∃ es, t.trace = s.trace ++ es) ∧ t.launch = s.launch

/-! ### Display (40_display.md) -/

/-- The transform, bit by bit: bits 0 to 4 unchanged, bits 5 and 6 swapped, `char[7]` ignored (R121, R93; D6), and its
inverse is itself (R133). -/
def Obligations.EncoderSwapsTwoBits : Prop :=
  ∀ c : Byte, (∀ i < 5, (enc c).getLsbD i = c.getLsbD i) ∧ (enc c).getLsbD 5 = c.getLsbD 6 ∧
    (enc c).getLsbD 6 = c.getLsbD 5 ∧ dec (enc c) = c.setWidth 7

/-- ENCODE completes: the pattern in the result port, nothing else changed (R122). -/
def Obligations.EncodeCompletes : Prop :=
  ∀ (c : Byte) (s : State), s.fault = none →
    exec (.encodeChar c) s = .next { s with result := some (.pattern (enc c)) }

/-- PRINT_CHAR completes at every legal position: the 27 events of R125 in order, the pins at their last levels, the other
display's write enable as it was, and nothing else changed (R125, R126; D7). -/
def Obligations.PrintCharCompletes : Prop :=
  ∀ (d : Disp) (pos : BitVec 3) (c : Byte) (s : State) (l : AddrLines), s.fault = none →
    s.launch.params.addrMap[pos.toNat]? = some l →
      exec (.printChar d pos c) s = .next
        { s with
          result := none
          pins :=
            { a0 := some l.a0
              a1 := some l.a1
              weN0 := if d = .d0 then some true else s.pins.weN0
              weN1 := if d = .d1 then some true else s.pins.weN1
              ser := some ((enc c).getLsbD 6)
              sclk := some false
              rclk := some false }
          trace := s.trace ++
            ([.pin .a0 l.a0, .pin .a1 l.a1] ++
              [0, 1, 2, 3, 4, 5, 6].flatMap (fun i =>
                [.pin .ser ((enc c).getLsbD i), .pin .sclk true, .pin .sclk false]) ++
              [.pin (writeEnable d) false, .pin .rclk true, .pin .rclk false, .pin (writeEnable d) true]) }

/-- Which positions are legal: 0 to 4; PRINT_CHAR at 5 to 7 raises `IllegalPosition` before any event (R129, D5). -/
def Obligations.PrintCharFaultsPastPositionFour : Prop :=
  ∀ (d : Disp) (pos : BitVec 3) (c : Byte) (s : State), s.fault = none →
    if pos.toNat ≤ 4 then ∃ l, s.launch.params.addrMap[pos.toNat]? = some l
    else exec (.printChar d pos c) s =
      .next { s with result := none, fault := some (.illegalPosition pos) }

/-- CLEAR_DISPLAY is five PRINT_CHAR of a space, at positions 0 to 4 (R127, R109; ascending is D41), and it always
completes. -/
def Obligations.ClearDisplayIsFivePrints : Prop :=
  ∀ (d : Disp) (s : State), s.fault = none →
    exec (.clearDisplay d) s =
      execAll [.printChar d 0 0x20, .printChar d 1 0x20, .printChar d 2 0x20, .printChar d 3 0x20,
        .printChar d 4 0x20] s ∧
    ∃ t es, exec (.clearDisplay d) s = .next t ∧ t.fault = none ∧ t.trace = s.trace ++ es ∧ es.length = 135

/-- A PRINT_CHAR drives only its own display's write enable: the other keeps its level and no event drives it, while the
events on the shared pins are the same for both displays (R126). -/
def Obligations.PrintCharDrivesOneWriteEnable : Prop :=
  ∀ (d : Disp) (pos : BitVec 3) (c : Byte) (s t : State), exec (.printChar d pos c) s = .next t →
    (∀ e : Disp, e ≠ d → t.pins.level (writeEnable e) = s.pins.level (writeEnable e)) ∧
    ∃ es, t.trace = s.trace ++ es ∧
      (∀ (e : Disp) (b : Level), e ≠ d → Event.pin (writeEnable e) b ∉ es) ∧
      ∀ (e : Disp) (u : State), exec (.printChar e pos c) s = .next u →
        ∃ fs, u.trace = s.trace ++ fs ∧
          es.filter (fun x => x = .pin .a0 true ∨ x = .pin .a0 false ∨ x = .pin .a1 true ∨ x = .pin .a1 false ∨
            x = .pin .ser true ∨ x = .pin .ser false ∨ x = .pin .sclk true ∨ x = .pin .sclk false ∨
            x = .pin .rclk true ∨ x = .pin .rclk false) =
          fs.filter (fun x => x = .pin .a0 true ∨ x = .pin .a0 false ∨ x = .pin .a1 true ∨ x = .pin .a1 false ∨
            x = .pin .ser true ∨ x = .pin .ser false ∨ x = .pin .sclk true ∨ x = .pin .sclk false ∨
            x = .pin .rclk true ∨ x = .pin .rclk false)

/-- The frame of PRINT_CHAR and CLEAR_DISPLAY, completed or stopped: only pins, trace, result port and fault may change, and
only pin events are added (R124, R127). -/
def Obligations.DisplayCommandsFrame : Prop :=
  ∀ (i : Instr) (s t : State),
    ((∃ d pos c, i = .printChar d pos c) ∨ ∃ d, i = .clearDisplay d) → exec i s = .next t →
      t = { s with pins := t.pins, trace := t.trace, result := none, fault := t.fault } ∧
      ∃ es, t.trace = s.trace ++ es ∧ ∀ e ∈ es, ∃ p b, e = .pin p b

/-- End to end, in the spec's reference model of the displays (20_memory.md R82 to R84, D8): whatever the external state,
with SCLK and RCLK not high, the events of one PRINT_CHAR leave the 7-bit code of the character in the addressed cell and
every other cell as it was. That RCLK's first rise from no value latches is the model's reading (log 19, DEDUCED). -/
def Obligations.PrintedCharReachesItsCell : Prop :=
  ∀ (d : Disp) (pos : BitVec 3) (c : Byte) (s t : State) (l : AddrLines) (es : List Event) (r : Ref),
    s.launch.params.addrMap[pos.toNat]? = some l → s.fault = none → exec (.printChar d pos c) s = .next t →
    t.trace = s.trace ++ es → r.pins.sclk ≠ some true → r.pins.rclk ≠ some true →
      ∃ q, refRun r es = .ok q ∧ q.cells = r.cells.set (cellPlace d l) (some (c.setWidth 7)) ∧
        q.pins.sclk = some false ∧ q.pins.rclk = some false

/-! ### LED driver (41_led_driver.md) -/

/-- GAMMA (R153; its word is the spec's decision D1): its words decode to it, it puts the table's entry in the result port, changes nothing else, and
gives 0 at 0 and 255 at 255. -/
def Obligations.GammaReadsTheTable : Prop :=
  (∀ v : Byte, decode (0x10#8 ++ 0#48 ++ v) = .ok (.gamma v)) ∧
  ∀ s : State, s.fault = none →
    (∀ v : Byte, ∃ x : Byte, s.launch.gamma.entries[v.toNat]? = some x ∧
      exec (.gamma v) s = .next { s with result := some (.intensity x) }) ∧
    exec (.gamma 0) s = .next { s with result := some (.intensity 0) } ∧
    exec (.gamma 255) s = .next { s with result := some (.intensity 255) }

/-- The laws L1 to L4 of every table a launch admits (R151; L4 is the spec's reading of "non-linear"). -/
def Obligations.GammaLawsHold : Prop :=
  ∀ g : GammaTable, lut g 0 = 0 ∧ lut g 255 = 255 ∧ (∀ v w : Byte, v ≤ w → lut g v ≤ lut g w) ∧
    ∃ v : Byte, lut g v ≠ v

/-- SET_LED completes: three 2-byte transactions to the indexed active chip, zero phase first, the corrected component of
each slot second, in the order `SLOT_LAYOUT` says; the last register in the result port; nothing else changed (R155,
R157; D11, D12). -/
def Obligations.SetLedCompletes : Prop :=
  ∀ (chip : BitVec 4) (base : Byte) (color : Color) (s : State) (c : Chip) (o : PixelOrder),
    s.fault = none → s.activeChips[chip.toNat]? = some c → pixelOrder s.cfg.pixelOrder = some o →
    base.toNat ≤ 250 → s.BusOk 3 →
      exec (.setLed chip base color) s = .next
        { s with
          result := some (.register (match s.launch.params.slotLayout with
            | .slot => base + 4
            | .component => base + 2 * BitVec.ofNat 8 (o.slotOf .blue)))
          answers := s.answers.drop 3
          trace := s.trace ++ (match s.launch.params.slotLayout with
            | .slot =>
              [.txn ⟨c.addr, base, [0, lut s.launch.gamma (chan color o.slot0)]⟩,
               .txn ⟨c.addr, base + 2, [0, lut s.launch.gamma (chan color o.slot1)]⟩,
               .txn ⟨c.addr, base + 4, [0, lut s.launch.gamma (chan color o.slot2)]⟩]
            | .component =>
              [.txn ⟨c.addr, base + 2 * BitVec.ofNat 8 (o.slotOf .red), [0, lut s.launch.gamma (chan color .red)]⟩,
               .txn ⟨c.addr, base + 2 * BitVec.ofNat 8 (o.slotOf .green), [0, lut s.launch.gamma (chan color .green)]⟩,
               .txn ⟨c.addr, base + 2 * BitVec.ofNat 8 (o.slotOf .blue), [0, lut s.launch.gamma (chan color .blue)]⟩]) }

/-- SET_LED's faults before any event, in the order of 60_exceptions.md R254: `NoChip`, `PixelOrder`, `RegisterRange`
(R157, R158; D13, D29, D31). -/
def Obligations.SetLedFaultsBeforeAnyEvent : Prop :=
  ∀ (chip : BitVec 4) (base : Byte) (color : Color) (s : State), s.fault = none →
    if s.activeChips.length ≤ chip.toNat then
      exec (.setLed chip base color) s = .next { s with result := none, fault := some (.noChip chip) }
    else if pixelOrder s.cfg.pixelOrder = none then
      exec (.setLed chip base color) s =
        .next { s with result := none, fault := some (.pixelOrder s.cfg.pixelOrder) }
    else if 250 < base.toNat then
      exec (.setLed chip base color) s =
        .next { s with result := none, fault := some (.registerRange base.toNat) }
    else True

/-- A SET_LED whose `k`-th transaction (`k` from 0) the transport fails: that transaction is the last event, the fault
records it, and the result port is left cleared (60_exceptions.md R253, D30). -/
def Obligations.SetLedBusFaultKeepsThePartialTrace : Prop :=
  ∀ (chip : BitVec 4) (base : Byte) (color : Color) (s : State) (c : Chip) (o : PixelOrder) (k : Nat)
    (x : Txn) (rest : List BusAnswer),
    s.fault = none → s.activeChips[chip.toNat]? = some c → pixelOrder s.cfg.pixelOrder = some o →
    base.toNat ≤ 250 → s.answers = List.replicate k .ok ++ .fail :: rest →
    (groupTxns s.launch.params s.launch.gamma o c.addr base.toNat color)[k]? = some x →
      exec (.setLed chip base color) s = .next
        { s with
          result := none
          fault := some (.busFault x)
          answers := rest
          trace := s.trace ++
            ((groupTxns s.launch.params s.launch.gamma o c.addr base.toNat color).take (k + 1)).map .txn }

/-- LED_INIT completes: the five groups of R160 in their normative order, the ceiling chosen by `cfg.overdrive` (D16), and
nothing else (R161). -/
def Obligations.LedInitCompletes : Prop :=
  ∀ (chip : BitVec 4) (s : State) (c : Chip) (ts : List Txn),
    s.fault = none → s.activeChips[chip.toNat]? = some c →
    ts = groupOf c.addr c.resetTxns ++ groupOf c.addr c.scaleTxns ++ groupOf c.addr c.blankTxns ++
      groupOf c.addr (if s.cfg.overdrive = some true then c.ceilTxnsOverdrive else c.ceilTxns) ++
      groupOf c.addr c.normalTxns → s.BusOk ts.length →
      exec (.ledInit chip) s = .next
        { s with result := none, trace := s.trace ++ ts.map .txn, answers := s.answers.drop ts.length }

/-- A failing transaction stops its command there (60_exceptions.md R253, R254, D30). LED_INIT: the groups are cut off after it,
so the mode switch is not sent. Every command, LED_SELFTEST, BEGIN, STEP and BLIT among them: where it would leave `u` with
a bus that answers `ok`, and `x` is the transaction the bus fails, the events up to `x` stand and none follows, the fault
records `x`, the result port is empty, and pins, animation fields and oracle are as in `u` (BEGIN and STEP write them before
their first transaction, R204, R213; 95_test_vectors.md section 8.1). -/
def Obligations.BusFaultStopsTheSequence : Prop :=
  (∀ (chip : BitVec 4) (s : State) (c : Chip) (ts : List Txn) (k : Nat) (x : Txn) (rest : List BusAnswer),
    s.fault = none → s.activeChips[chip.toNat]? = some c →
    ts = groupOf c.addr c.resetTxns ++ groupOf c.addr c.scaleTxns ++ groupOf c.addr c.blankTxns ++
      groupOf c.addr (if s.cfg.overdrive = some true then c.ceilTxnsOverdrive else c.ceilTxns) ++
      groupOf c.addr c.normalTxns → ts[k]? = some x →
    s.answers = List.replicate k .ok ++ .fail :: rest →
      exec (.ledInit chip) s = .next
        { s with
          result := none
          fault := some (.busFault x)
          answers := rest
          trace := s.trace ++ (ts.take (k + 1)).map .txn }) ∧
  ∀ (i : Instr) (s u : State) (before after : List Event) (x : Txn) (rest : List BusAnswer),
    exec i { s with answers := [] } = .next u → u.trace = s.trace ++ before ++ .txn x :: after →
    s.answers = List.replicate (txnCount before) .ok ++ .fail :: rest →
      ∃ b : List Color, exec i s = .next
        { u with
          result := none
          fault := some (.busFault x)
          answers := rest
          trace := s.trace ++ before ++ [.txn x]
          buf := b }

/-- LED_SELFTEST completes: every window's transactions and a `Delay` after it, the last included (D18), then the blanking;
no result (R163, R164). -/
def Obligations.LedSelftestCompletes : Prop :=
  ∀ (chip : BitVec 4) (s : State) (c : Chip) (n : Nat),
    s.fault = none → s.activeChips[chip.toNat]? = some c →
    n = (c.selfTest.flatMap fun w => groupOf c.addr w.writes).length + (groupOf c.addr c.blankTxns).length →
    s.BusOk n →
      exec (.ledSelftest chip) s = .next
        { s with
          result := none
          answers := s.answers.drop n
          trace := s.trace ++
            (c.selfTest.flatMap (fun w => (groupOf c.addr w.writes).map .txn ++
              [.delay s.launch.params.selfTestDelayMs]) ++
            (groupOf c.addr c.blankTxns).map .txn) }

/-- LED_INIT and LED_SELFTEST at an index past the active list raise `NoChip` before any event, and the active list is the
first attached chip alone under battery saver (R161, R164, R165; D29). -/
def Obligations.ChipIndexPastTheActiveListFaults : Prop :=
  ∀ (chip : BitVec 4) (s : State), s.fault = none →
    (if s.cfg.batterySaver = some true then s.launch.attached.take 1 else s.launch.attached).length ≤ chip.toNat →
      exec (.ledInit chip) s = .next { s with result := none, fault := some (.noChip chip) } ∧
      exec (.ledSelftest chip) s = .next { s with result := none, fault := some (.noChip chip) }

/-- The frame of SET_LED, LED_INIT and LED_SELFTEST, completed or stopped: only trace, result port, fault and the
transport's answers may change, only transactions and delays are added; the Channel Buffer and the animation fields stay
(R157, R161, R164). -/
def Obligations.LedCommandsFrame : Prop :=
  ∀ (i : Instr) (s t : State),
    ((∃ c b x, i = .setLed c b x) ∨ (∃ c, i = .ledInit c) ∨ ∃ c, i = .ledSelftest c) → exec i s = .next t →
      t = { s with trace := t.trace, result := t.result, fault := t.fault, answers := t.answers } ∧
      (∃ n, t.answers = s.answers.drop n) ∧
      ∃ es, t.trace = s.trace ++ es ∧ ∀ e ∈ es, (∃ x, e = .txn x) ∨ ∃ ms, e = .delay ms

/-- Whatever the command: every transaction it emits names a chip of the active list (R166, D29). -/
def Obligations.TransactionsNameActiveChips : Prop :=
  ∀ (i : Instr) (s t : State), exec i s = .next t →
    ∃ es, t.trace = s.trace ++ es ∧ ∀ x : Txn, Event.txn x ∈ es → s.IsActive x.chip

/-! ### Interpolator (42_interpolator.md) -/

/-- LERP completes for every position 0 to 255: each lane the exact value `100*a + (b - a)*k` over 100, rounded by
`LERP_ROUND`, not clamped; under `Floor` the mathematical floor (R180, R181, R184; D19, D20). -/
def Obligations.LerpCompletes : Prop :=
  ∀ (k : Byte) (ca cb : Color) (s : State), s.fault = none →
    ∃ v : Component → Int,
      exec (.lerp k ca cb) s = .next { s with result := some (.triad ⟨v .red, v .green, v .blue⟩) } ∧
      ∀ x : Component,
        v x = roundPercent s.launch.params.lerpRound
          (100 * ((chan ca x).toNat : Int) + (((chan cb x).toNat : Int) - ((chan ca x).toNat : Int)) * (k.toNat : Int)) ∧
        (s.launch.params.lerpRound = .floor →
          v x = ⌊((chan ca x).toNat : Rat) +
            (((chan cb x).toNat : Rat) - ((chan ca x).toNat : Rat)) * (k.toNat : Rat) / 100⌋)

/-- Every rounding is exact where the exact value is an integer, and otherwise gives one of its two neighbours (R182; the
neighbours are log 12, DESIGN CHOICE). -/
def Obligations.RoundingIsAdmissible : Prop :=
  ∀ (r : LerpRound) (n : Int), (100 ∣ n → 100 * roundPercent r n = n) ∧
    n - 100 < 100 * roundPercent r n ∧ 100 * roundPercent r n < n + 100

/-- R185's laws, under every rounding and for every position: a color blended with itself, position 0, position 100. -/
def Obligations.LerpLaws : Prop :=
  ∀ (r : LerpRound) (a b : Color) (k : Nat),
    blend r a a k = unpack a ∧ blend r a b 0 = unpack a ∧ blend r a b 100 = unpack b ∧ pack (unpack a) = a

/-- Between positions 0 and 100 every lane lies between its two colors' channels (R181, which derives it under `Floor`; under
the other roundings it rests on log 12). -/
def Obligations.LerpStaysBetween : Prop :=
  ∀ (r : LerpRound) (a b : Byte) (k : Nat), k ≤ 100 →
    min (a.toNat : Int) b.toNat ≤ lerpLane r a b k ∧ lerpLane r a b k ≤ max (a.toNat : Int) b.toNat

/-! ### Channel Buffer and frames (20_memory.md R65, R66; 43_animation.md R215 to R218) -/

/-- `BufPush` (R65): into a full buffer the oldest entry is dropped first; the new one is the newest; never more than 6; no
event and no fault. -/
def Obligations.BufPushEvictsTheOldest : Prop :=
  ∀ (c : Color) (s : State),
    bufPush c s = { s with buf := (if s.buf.length = 6 then s.buf.tail else s.buf) ++ [c] } ∧
    (s.buf.length ≤ 6 → (bufPush c s).buf.length ≤ 6)

/-- `BufPop` (R66): the oldest entry, and the state without it. -/
def Obligations.BufPopTakesTheOldest : Prop :=
  ∀ s : State, 0 < s.buf.length →
    ∃ c t, bufPop s = some (c, t) ∧ s.buf[0]? = some c ∧ t = { s with buf := s.buf.tail }

/-- Every frame evicts its own first entry: from an empty buffer, groups 1 to 6 stay, in order (R218). -/
def Obligations.FrameEvictsGroupZero : Prop :=
  ∀ (f : Group → Color) (s : State), s.buf = [] →
    pushFrame f s = { s with buf := [f 1, f 2, f 3, f 4, f 5, f 6] }

/-- BLIT completes: the buffer drained, entries in FIFO order, chips in `ACTIVE` order, each group at the base R215's
threading gives it, and nothing else (R215 to R217; D15). It does not need a BEGIN. -/
def Obligations.BlitCompletes : Prop :=
  ∀ (s : State) (o : PixelOrder),
    s.fault = none → (s.activeChips ≠ [] → pixelOrder s.cfg.pixelOrder = some o) →
    BlitFits s.launch.params o s.activeChips.length s.buf.length →
    s.BusOk (3 * s.activeChips.length * s.buf.length) →
      exec .blit s = .next (State.sent (s.frameTxns o s.buf) { s with result := none, buf := [] })

/-- BLIT of an empty buffer sends nothing and reads no configuration, before the first BEGIN as well (R216). -/
def Obligations.EmptyBlitSendsNothing : Prop :=
  ∀ s : State, s.fault = none → s.buf = [] → exec .blit s = .next { s with result := none }

/-- An illegal pixel order and an active chip: the first group to be sent raises `PixelOrder` of the value read, its entry
popped and nothing of the frame sent (R154, R215, 70_reset_and_hazards.md R294; D31). BLIT with an entry; BEGIN, its fields
set, before the blanking or after it as `BEGIN_ORDER` says (R204, 95_test_vectors.md section 8.1); STEP of a style the spec
names, with its fields and draw as a legal order would leave them (R206). The premise `Inv` on STEP is what runs keep. -/
def Obligations.BlitNeedsAPixelOrder : Prop :=
  ∀ s : State, s.fault = none → s.activeChips ≠ [] → pixelOrder s.cfg.pixelOrder = none →
    (∀ (c : Color) (cs : List Color), s.buf = c :: cs →
      exec .blit s = .next
        { s with result := none, buf := cs, fault := some (.pixelOrder s.cfg.pixelOrder) }) ∧
    (∀ (idx : BitVec 16) (p : Palette), s.launch.palettes.toList[idx.toNat]? = some p →
      (s.launch.params.beginOrder = .blankThenRender → s.BusOk (blankTxns s.activeChips).length) →
      exec (.animBegin idx) s = .next
        (State.sent
          (match s.launch.params.beginOrder with
            | .renderThenBlank => []
            | .blankThenRender => blankTxns s.activeChips)
          { s with
            result := none
            buf := List.replicate 5 p.colors.head
            fault := some (.pixelOrder s.cfg.pixelOrder)
            anim := some
              { pal := idx.toNat, currentColor := 0, lerping := false, lastLerp := 0, active := [] } })) ∧
    (∀ (a : Anim) (p : Palette) (u : State), s.Inv → s.anim = some a → s.launch.palettes.toList[a.pal]? = some p →
      (∀ tag, p.desc.style ≠ .unknown tag) →
      exec .animStep { s with cfg := { s.cfg with pixelOrder := some "RGB" } } = .next u →
      ∃ b : List Color, b.length = 5 ∧ exec .animStep s = .next
        { s with
          result := none
          buf := b
          fault := some (.pixelOrder s.cfg.pixelOrder)
          anim := u.anim
          draws := u.draws
          drawPos := u.drawPos })

/-- Base growth (70_reset_and_hazards.md R303, R215; D13, D15): a frame of six entries under the defaults from base 1, the bus
answering `ok`. With six active chips or more the call that crosses register 250 raises `RegisterRange(257)`; with fewer none
does. It holds of BLIT with a full buffer, of BEGIN, where with rendering first the 96 transactions of the calls before it
stand and no blanking follows (95_test_vectors.md section 7.1), and of STEP of a style the spec names; a run reaches the last
two. -/
def Obligations.SixChipsPassTheLastRegister : Prop :=
  ∀ (s t : State) (o : PixelOrder), s.fault = none → pixelOrder s.cfg.pixelOrder = some o →
    s.launch.params.blitThreading = .perCall → s.launch.params.slotLayout = .slot →
    s.launch.params.firstBase = 1 → (∀ a ∈ s.answers, a = .ok) →
    (s.buf.length = 6 → exec .blit s = .next t →
      t.fault = if 6 ≤ s.activeChips.length then some (.registerRange 257) else none) ∧
    (∀ (idx : BitVec 16) (p : Palette), s.launch.palettes.toList[idx.toNat]? = some p →
      exec (.animBegin idx) s = .next t →
      t.fault = (if 6 ≤ s.activeChips.length then some (.registerRange 257) else none) ∧
      (6 ≤ s.activeChips.length → s.launch.params.beginOrder = .renderThenBlank →
        t.trace = s.trace ++ ((s.frameTxns o (List.replicate 6 p.colors.head)).take 96).map .txn)) ∧
    (∀ (a : Anim) (p : Palette), s.Inv → s.anim = some a → s.launch.palettes.toList[a.pal]? = some p →
      (∀ tag, p.desc.style ≠ .unknown tag) → exec .animStep s = .next t →
      t.fault = if 6 ≤ s.activeChips.length then some (.registerRange 257) else none)

/-! ### BEGIN and STEP (43_animation.md R204 to R214) -/

/-- BEGIN completes: the animation fields at the palette's first color, `lerping` false, progress 0, no active group, the
buffer drained; the flat frame of six groups and the blanking of every active chip in the order `BEGIN_ORDER` says
(R204, R205; D22). -/
def Obligations.BeginCompletes : Prop :=
  ∀ (idx : BitVec 16) (s : State) (p : Palette) (o : PixelOrder),
    s.launch.palettes.toList[idx.toNat]? = some p → { s with buf := [] }.Ready o (blankTxns s.activeChips).length →
      exec (.animBegin idx) s = .next
        (State.sent
          (match s.launch.params.beginOrder with
            | .renderThenBlank => s.frameTxns o (List.replicate 6 p.colors.head) ++ blankTxns s.activeChips
            | .blankThenRender => blankTxns s.activeChips ++ s.frameTxns o (List.replicate 6 p.colors.head))
          { s with
            result := none
            buf := []
            anim := some
              { pal := idx.toNat, currentColor := 0, lerping := false, lastLerp := 0, active := [] } })

/-- BEGIN of a palette in the list sets the animation fields before any event: whatever fault stops it, they hold R204's
values afterwards (R204, 95_test_vectors.md section 8.1). -/
def Obligations.BeginSetsTheFieldsFirst : Prop :=
  ∀ (idx : BitVec 16) (s t : State), idx.toNat < s.launch.palettes.size → exec (.animBegin idx) s = .next t →
    t.anim = some { pal := idx.toNat, currentColor := 0, lerping := false, lastLerp := 0, active := [] } ∧
    (t.fault = none → t.buf = [])

/-- BEGIN past the palette list and STEP before the first BEGIN fault before any event or change (R221, R219; D28, D21). -/
def Obligations.BeginAndStepFaultEarly : Prop :=
  ∀ s : State, s.fault = none →
    (∀ idx : BitVec 16, s.launch.palettes.size ≤ idx.toNat →
      exec (.animBegin idx) s = .next { s with result := none, fault := some (.badPalette idx) }) ∧
    (s.begun = false → exec .animStep s = .next { s with result := none, fault := some .noPalette })

/-- STEP of style Fade or Sweep completes: `current_color` advanced modulo the palette's length, six groups of that color
sent, the other animation fields unchanged, whatever the flags (R203, R207, R208, R213). -/
def Obligations.StepFlatCompletes : Prop :=
  ∀ (s : State) (a : Anim) (p : Palette) (c : Color) (o : PixelOrder),
    s.anim = some a → s.launch.palettes.toList[a.pal]? = some p → (p.desc.style = .fade ∨ p.desc.style = .sweep) →
    p.colors.toList[(a.currentColor + 1) % p.colors.size]? = some c → s.Ready o 0 →
      exec .animStep s = .next
        (State.sent (s.frameTxns o (List.replicate 6 c))
          { s with
            result := none
            anim := some { a with currentColor := (a.currentColor + 1) % p.colors.size } })

/-- STEP of style Sparkle in a crossfade completes: progress +20 clamped at 100, the blend at the new progress toward the
next color or black on the active groups 1 to 6, and at 100 the commit (R202, R209; D23). -/
def Obligations.StepCrossfadeCompletes : Prop :=
  ∀ (s : State) (a : Anim) (p : Palette) (c target : Color) (o : PixelOrder),
    s.anim = some a → s.launch.palettes.toList[a.pal]? = some p → p.desc.style = .sparkle →
    a.lerping = true → p.desc.fade = true → p.colors.toList[a.currentColor]? = some c →
    (if p.desc.mix then p.colors.toList[(a.currentColor + 1) % p.colors.size]? else some black) = some target →
    s.Ready o 0 →
      exec .animStep s = .next
        (State.sent
          (s.frameTxns o ((List.map (fun g : Group => if g ∈ a.active then
            pack (blend s.launch.params.lerpRound c target (min (a.lastLerp + 20) 100)) else black)
            [1, 2, 3, 4, 5, 6])))
          { s with
            result := none
            anim := some
              (if a.lastLerp + 20 < 100 then { a with lastLerp := a.lastLerp + 20 }
              else
                { a with
                  lastLerp := 0
                  lerping := false
                  currentColor := (a.currentColor + 1) % p.colors.size }) })

/-- STEP of style Sparkle with no crossfade in progress completes: the drawn set active, `lerping` set, the color advanced
first when fading is disabled, that color on the active groups 1 to 6, the oracle one position on (R202, R210, R214; D24,
D25). The draw is the host's, or free: the statement holds for every draw. -/
def Obligations.StepNewSparkleCompletes : Prop :=
  ∀ (s : State) (a b : Anim) (p : Palette) (c : Color) (o : PixelOrder),
    s.anim = some a → s.launch.palettes.toList[a.pal]? = some p → p.desc.style = .sparkle →
    (a.lerping = false ∨ p.desc.fade = false) →
    b = { a with
      active := [s.nextDraw.first, s.nextDraw.second, s.nextDraw.third]
      lerping := true
      currentColor := if p.desc.fade then a.currentColor else (a.currentColor + 1) % p.colors.size } →
    p.colors.toList[b.currentColor]? = some c → s.Ready o 0 →
      exec .animStep s = .next
        (State.sent
          (s.frameTxns o (List.map (fun g : Group => if g ∈ b.active then c else black) [1, 2, 3, 4, 5, 6]))
          { s with result := none, anim := some b, draws := s.draws.tail, drawPos := s.drawPos + 1 })

/-- STEP of an unrecognized style completes: the diagnostic with its tag is the only effect (R212; D26, D36). -/
def Obligations.StepUnknownStyleOnlyDiagnoses : Prop :=
  ∀ (s : State) (a : Anim) (p : Palette) (tag : String),
    s.fault = none → s.buf = [] → s.anim = some a → s.launch.palettes.toList[a.pal]? = some p →
    p.desc.style = .unknown tag →
      exec .animStep s = .next { s with result := none, trace := s.trace ++ [.diag tag] }

/-- The frame of BEGIN, STEP and BLIT, completed or stopped: the pins stay and no event drives one; BEGIN and BLIT draw
nothing, BLIT keeps the animation fields, STEP keeps the active palette; result port cleared (R204, R206, R216). -/
def Obligations.AnimationCommandsFrame : Prop :=
  ∀ (i : Instr) (s t : State), ((∃ idx, i = .animBegin idx) ∨ i = .animStep ∨ i = .blit) → exec i s = .next t →
    t.pins = s.pins ∧ t.result = none ∧ (∃ n, t.answers = s.answers.drop n) ∧
    (∃ es, t.trace = s.trace ++ es ∧ ∀ p b, Event.pin p b ∉ es) ∧
    (i ≠ .animStep → t.draws = s.draws ∧ t.drawPos = s.drawPos) ∧
    (i = .blit → t.anim = s.anim) ∧
    (i = .animStep → t.anim.map Anim.pal = s.anim.map Anim.pal ∧
      (t.drawPos = s.drawPos ∧ t.draws = s.draws ∨ t.drawPos = s.drawPos + 1 ∧ t.draws = s.draws.tail))

/-- `Advance` (R203): one on, modulo the palette's length, nothing else; a palette of one color stays at 0. -/
def Obligations.AdvanceWraps : Prop :=
  ∀ (len : Nat) (a : Anim), 0 < len →
    a.advance len = { a with currentColor := (a.currentColor + 1) % len } ∧
    (a.advance len).currentColor < len ∧ (a.advance 1).currentColor = 0

/-- The Fade and Sweep index law (R222): `N` STEPs from `current_color = i` give `(i + N) mod L`, every other animation
field unchanged. -/
def Obligations.FlatStyleIndexLaw : Prop :=
  ∀ (n : Nat) (s t : State) (a : Anim) (p : Palette),
    s.anim = some a → s.launch.palettes.toList[a.pal]? = some p → (p.desc.style = .fade ∨ p.desc.style = .sweep) →
    a.currentColor < p.colors.size → execAll (List.replicate n .animStep) s = .next t →
      t.anim = some { a with currentColor := (a.currentColor + n) % p.colors.size }

/-- A sparkle cycle with fading (R211): from an idle engine, after the new-cycle tick and up to four crossfade ticks the drawn
set is active and the progress is 20 per crossfade tick; the sixth tick commits: progress 0, `lerping` false, the next
color, the same active set, one draw taken. -/
def Obligations.SparkleCycleTakesSixTicks : Prop :=
  ∀ (n : Nat) (s t : State) (a : Anim) (p : Palette),
    s.anim = some a → s.launch.palettes.toList[a.pal]? = some p → p.desc.style = .sparkle → p.desc.fade = true →
    a.lerping = false → a.lastLerp = 0 → a.currentColor < p.colors.size → 1 ≤ n → n ≤ 6 →
    execAll (List.replicate n .animStep) s = .next t →
      t.drawPos = s.drawPos + 1 ∧
      t.anim = some
        (if n < 6 then
          { a with active := s.nextDraw.groups, lerping := true, lastLerp := 20 * (n - 1) }
        else
          { a with active := s.nextDraw.groups, currentColor := (a.currentColor + 1) % p.colors.size })

/-! ### Host side (60_exceptions.md R264, R269) -/

/-- The debounce contract (R264; times in whole milliseconds, log 20, log 23, DESIGN CHOICE): after an accepted edge at `t`, an
edge less than the cooldown later is discarded and does not restart the window; one at the cooldown or later is accepted
(D37 at equality). A button has its own cooldown or the launch's `COOLDOWN_MS`, and its first edge is accepted (D37). -/
def Obligations.DebounceWindow : Prop :=
  (∀ (d : Debouncer) (t u : Nat), d.nextEligible ≤ t → t ≤ u →
    d.count [t] = 1 ∧
    (u < t + d.cooldown → d.count [t, u] = 1 ∧ ((d.edge t).1.edge u).1 = (d.edge t).1) ∧
    (t + d.cooldown ≤ u → d.count [t, u] = 2)) ∧
  ∀ (l : Launch) (own : Option Nat) (t : Nat),
    (Debouncer.ofLaunch l own).edge t =
      (⟨own.getD l.params.cooldownMs, t + own.getD l.params.cooldownMs⟩, true)

/-- The flag buttons (R269, D38), for at most 65536 palettes, which is what BEGIN's operand reaches (log 24, DESIGN CHOICE beyond):
each persists the next or previous index modulo the number of palettes and issues BEGIN of it, a missing index reading 0
(R33); from index 0 the previous flag is the last one, from the last the next is 0, and the two undo each other. -/
def Obligations.FlagSelectionWraps : Prop :=
  (∀ (l : Launch) (c : Cfg) (i : Nat), l.palettes.size ≤ 65536 → c.flag = some i ∨ c.flag = none ∧ i = 0 →
    ∃ next prev : BitVec 16, next.toNat = (i + 1) % l.palettes.size ∧
      prev.toNat = (i + l.palettes.size - 1) % l.palettes.size ∧
      flagNext l c =
        some [.configure { c with flag := some next.toNat }, .command (encode (.animBegin next))] ∧
      flagPrev l c =
        some [.configure { c with flag := some prev.toNat }, .command (encode (.animBegin prev))]) ∧
  ∀ n i : Nat, i < n →
    prevIndex n 0 = n - 1 ∧ nextIndex n (n - 1) = 0 ∧ nextIndex n i < n ∧ prevIndex n i < n ∧
    nextIndex n (prevIndex n i) = i ∧ prevIndex n (nextIndex n i) = i
end

