-- ==== Sys2Proof/Laws/State.lean ====
section
/-! SUPPORT. One lemma per field per named update of the state, each true by unfolding. -/

namespace Sys2Proof.Machine

@[simp] theorem State.record_fault (s : State) (e : Event) : (s.record e).fault = s.fault := rfl
@[simp] theorem State.record_pins (s : State) (e : Event) : (s.record e).pins = s.pins := rfl
@[simp] theorem State.record_anim (s : State) (e : Event) : (s.record e).anim = s.anim := rfl
@[simp] theorem State.record_buf (s : State) (e : Event) : (s.record e).buf = s.buf := rfl
@[simp] theorem State.record_trace (s : State) (e : Event) : (s.record e).trace = s.trace ++ [e] := rfl
@[simp] theorem State.record_result (s : State) (e : Event) : (s.record e).result = s.result := rfl
@[simp] theorem State.record_cfg (s : State) (e : Event) : (s.record e).cfg = s.cfg := rfl
@[simp] theorem State.record_launch (s : State) (e : Event) : (s.record e).launch = s.launch := rfl
@[simp] theorem State.record_answers (s : State) (e : Event) : (s.record e).answers = s.answers := rfl
@[simp] theorem State.record_draws (s : State) (e : Event) : (s.record e).draws = s.draws := rfl
@[simp] theorem State.record_drawPos (s : State) (e : Event) : (s.record e).drawPos = s.drawPos := rfl
@[simp] theorem State.record_commands (s : State) (e : Event) : (s.record e).commands = s.commands := rfl
@[simp] theorem State.record_index (s : State) (e : Event) : (s.record e).index = s.index := rfl

@[simp] theorem State.answer_fault (s : State) (v : Value) : (s.answer v).fault = s.fault := rfl
@[simp] theorem State.answer_pins (s : State) (v : Value) : (s.answer v).pins = s.pins := rfl
@[simp] theorem State.answer_anim (s : State) (v : Value) : (s.answer v).anim = s.anim := rfl
@[simp] theorem State.answer_buf (s : State) (v : Value) : (s.answer v).buf = s.buf := rfl
@[simp] theorem State.answer_trace (s : State) (v : Value) : (s.answer v).trace = s.trace := rfl
@[simp] theorem State.answer_result (s : State) (v : Value) : (s.answer v).result = some v := rfl
@[simp] theorem State.answer_cfg (s : State) (v : Value) : (s.answer v).cfg = s.cfg := rfl
@[simp] theorem State.answer_launch (s : State) (v : Value) : (s.answer v).launch = s.launch := rfl
@[simp] theorem State.answer_answers (s : State) (v : Value) : (s.answer v).answers = s.answers := rfl
@[simp] theorem State.answer_draws (s : State) (v : Value) : (s.answer v).draws = s.draws := rfl
@[simp] theorem State.answer_drawPos (s : State) (v : Value) : (s.answer v).drawPos = s.drawPos := rfl
@[simp] theorem State.answer_commands (s : State) (v : Value) : (s.answer v).commands = s.commands := rfl
@[simp] theorem State.answer_index (s : State) (v : Value) : (s.answer v).index = s.index := rfl

@[simp] theorem State.takeCommand_fault (s : State) (rest : List HostAct) : (s.takeCommand rest).fault = s.fault := rfl
@[simp] theorem State.takeCommand_pins (s : State) (rest : List HostAct) : (s.takeCommand rest).pins = s.pins := rfl
@[simp] theorem State.takeCommand_anim (s : State) (rest : List HostAct) : (s.takeCommand rest).anim = s.anim := rfl
@[simp] theorem State.takeCommand_buf (s : State) (rest : List HostAct) : (s.takeCommand rest).buf = s.buf := rfl
@[simp] theorem State.takeCommand_trace (s : State) (rest : List HostAct) : (s.takeCommand rest).trace = s.trace := rfl
@[simp] theorem State.takeCommand_result (s : State) (rest : List HostAct) : (s.takeCommand rest).result = s.result := rfl
@[simp] theorem State.takeCommand_cfg (s : State) (rest : List HostAct) : (s.takeCommand rest).cfg = s.cfg := rfl
@[simp] theorem State.takeCommand_launch (s : State) (rest : List HostAct) : (s.takeCommand rest).launch = s.launch := rfl
@[simp] theorem State.takeCommand_answers (s : State) (rest : List HostAct) : (s.takeCommand rest).answers = s.answers := rfl
@[simp] theorem State.takeCommand_draws (s : State) (rest : List HostAct) : (s.takeCommand rest).draws = s.draws := rfl
@[simp] theorem State.takeCommand_drawPos (s : State) (rest : List HostAct) : (s.takeCommand rest).drawPos = s.drawPos := rfl
@[simp] theorem State.takeCommand_commands (s : State) (rest : List HostAct) : (s.takeCommand rest).commands = rest := rfl
@[simp] theorem State.takeCommand_index (s : State) (rest : List HostAct) : (s.takeCommand rest).index = s.index + 1 := rfl

@[simp] theorem State.configure_fault (s : State) (c : Cfg) (rest : List HostAct) : (s.configure c rest).fault = s.fault := rfl
@[simp] theorem State.configure_pins (s : State) (c : Cfg) (rest : List HostAct) : (s.configure c rest).pins = s.pins := rfl
@[simp] theorem State.configure_anim (s : State) (c : Cfg) (rest : List HostAct) : (s.configure c rest).anim = s.anim := rfl
@[simp] theorem State.configure_buf (s : State) (c : Cfg) (rest : List HostAct) : (s.configure c rest).buf = s.buf := rfl
@[simp] theorem State.configure_trace (s : State) (c : Cfg) (rest : List HostAct) : (s.configure c rest).trace = s.trace := rfl
@[simp] theorem State.configure_result (s : State) (c : Cfg) (rest : List HostAct) : (s.configure c rest).result = s.result := rfl
@[simp] theorem State.configure_cfg (s : State) (c : Cfg) (rest : List HostAct) : (s.configure c rest).cfg = c := rfl
@[simp] theorem State.configure_launch (s : State) (c : Cfg) (rest : List HostAct) : (s.configure c rest).launch = s.launch := rfl
@[simp] theorem State.configure_answers (s : State) (c : Cfg) (rest : List HostAct) : (s.configure c rest).answers = s.answers := rfl
@[simp] theorem State.configure_draws (s : State) (c : Cfg) (rest : List HostAct) : (s.configure c rest).draws = s.draws := rfl
@[simp] theorem State.configure_drawPos (s : State) (c : Cfg) (rest : List HostAct) : (s.configure c rest).drawPos = s.drawPos := rfl
@[simp] theorem State.configure_commands (s : State) (c : Cfg) (rest : List HostAct) : (s.configure c rest).commands = rest := rfl
@[simp] theorem State.configure_index (s : State) (c : Cfg) (rest : List HostAct) : (s.configure c rest).index = s.index := rfl

@[simp] theorem drivePin_fault (s : State) (p : Pin) (b : Level) : (drivePin p b s).fault = s.fault := rfl
@[simp] theorem drivePin_pins (s : State) (p : Pin) (b : Level) : (drivePin p b s).pins = s.pins.drive p b := rfl
@[simp] theorem drivePin_anim (s : State) (p : Pin) (b : Level) : (drivePin p b s).anim = s.anim := rfl
@[simp] theorem drivePin_buf (s : State) (p : Pin) (b : Level) : (drivePin p b s).buf = s.buf := rfl
@[simp] theorem drivePin_trace (s : State) (p : Pin) (b : Level) : (drivePin p b s).trace = s.trace ++ [.pin p b] := rfl
@[simp] theorem drivePin_result (s : State) (p : Pin) (b : Level) : (drivePin p b s).result = s.result := rfl
@[simp] theorem drivePin_cfg (s : State) (p : Pin) (b : Level) : (drivePin p b s).cfg = s.cfg := rfl
@[simp] theorem drivePin_launch (s : State) (p : Pin) (b : Level) : (drivePin p b s).launch = s.launch := rfl
@[simp] theorem drivePin_answers (s : State) (p : Pin) (b : Level) : (drivePin p b s).answers = s.answers := rfl
@[simp] theorem drivePin_draws (s : State) (p : Pin) (b : Level) : (drivePin p b s).draws = s.draws := rfl
@[simp] theorem drivePin_drawPos (s : State) (p : Pin) (b : Level) : (drivePin p b s).drawPos = s.drawPos := rfl
@[simp] theorem drivePin_commands (s : State) (p : Pin) (b : Level) : (drivePin p b s).commands = s.commands := rfl
@[simp] theorem drivePin_index (s : State) (p : Pin) (b : Level) : (drivePin p b s).index = s.index := rfl

@[simp] theorem bufPush_fault (s : State) (c : Color) : (bufPush c s).fault = s.fault := rfl
@[simp] theorem bufPush_pins (s : State) (c : Color) : (bufPush c s).pins = s.pins := rfl
@[simp] theorem bufPush_anim (s : State) (c : Color) : (bufPush c s).anim = s.anim := rfl
@[simp] theorem bufPush_buf (s : State) (c : Color) : (bufPush c s).buf = fifoPush Config.bufCap s.buf c := rfl
@[simp] theorem bufPush_trace (s : State) (c : Color) : (bufPush c s).trace = s.trace := rfl
@[simp] theorem bufPush_result (s : State) (c : Color) : (bufPush c s).result = s.result := rfl
@[simp] theorem bufPush_cfg (s : State) (c : Color) : (bufPush c s).cfg = s.cfg := rfl
@[simp] theorem bufPush_launch (s : State) (c : Color) : (bufPush c s).launch = s.launch := rfl
@[simp] theorem bufPush_answers (s : State) (c : Color) : (bufPush c s).answers = s.answers := rfl
@[simp] theorem bufPush_draws (s : State) (c : Color) : (bufPush c s).draws = s.draws := rfl
@[simp] theorem bufPush_drawPos (s : State) (c : Color) : (bufPush c s).drawPos = s.drawPos := rfl
@[simp] theorem bufPush_commands (s : State) (c : Color) : (bufPush c s).commands = s.commands := rfl
@[simp] theorem bufPush_index (s : State) (c : Color) : (bufPush c s).index = s.index := rfl

@[simp] theorem emitDiag_fault (s : State) (tag : String) : (emitDiag tag s).fault = s.fault := rfl
@[simp] theorem emitDiag_pins (s : State) (tag : String) : (emitDiag tag s).pins = s.pins := rfl
@[simp] theorem emitDiag_anim (s : State) (tag : String) : (emitDiag tag s).anim = s.anim := rfl
@[simp] theorem emitDiag_buf (s : State) (tag : String) : (emitDiag tag s).buf = s.buf := rfl
@[simp] theorem emitDiag_trace (s : State) (tag : String) : (emitDiag tag s).trace = s.trace ++ [.diag tag] := rfl
@[simp] theorem emitDiag_result (s : State) (tag : String) : (emitDiag tag s).result = s.result := rfl
@[simp] theorem emitDiag_cfg (s : State) (tag : String) : (emitDiag tag s).cfg = s.cfg := rfl
@[simp] theorem emitDiag_launch (s : State) (tag : String) : (emitDiag tag s).launch = s.launch := rfl
@[simp] theorem emitDiag_answers (s : State) (tag : String) : (emitDiag tag s).answers = s.answers := rfl
@[simp] theorem emitDiag_draws (s : State) (tag : String) : (emitDiag tag s).draws = s.draws := rfl
@[simp] theorem emitDiag_drawPos (s : State) (tag : String) : (emitDiag tag s).drawPos = s.drawPos := rfl
@[simp] theorem emitDiag_commands (s : State) (tag : String) : (emitDiag tag s).commands = s.commands := rfl
@[simp] theorem emitDiag_index (s : State) (tag : String) : (emitDiag tag s).index = s.index := rfl

@[simp] theorem emitDelay_fault (s : State) (ms : Nat) : (emitDelay ms s).fault = s.fault := rfl
@[simp] theorem emitDelay_pins (s : State) (ms : Nat) : (emitDelay ms s).pins = s.pins := rfl
@[simp] theorem emitDelay_anim (s : State) (ms : Nat) : (emitDelay ms s).anim = s.anim := rfl
@[simp] theorem emitDelay_buf (s : State) (ms : Nat) : (emitDelay ms s).buf = s.buf := rfl
@[simp] theorem emitDelay_trace (s : State) (ms : Nat) : (emitDelay ms s).trace = s.trace ++ [.delay ms] := rfl
@[simp] theorem emitDelay_result (s : State) (ms : Nat) : (emitDelay ms s).result = s.result := rfl
@[simp] theorem emitDelay_cfg (s : State) (ms : Nat) : (emitDelay ms s).cfg = s.cfg := rfl
@[simp] theorem emitDelay_launch (s : State) (ms : Nat) : (emitDelay ms s).launch = s.launch := rfl
@[simp] theorem emitDelay_answers (s : State) (ms : Nat) : (emitDelay ms s).answers = s.answers := rfl
@[simp] theorem emitDelay_draws (s : State) (ms : Nat) : (emitDelay ms s).draws = s.draws := rfl
@[simp] theorem emitDelay_drawPos (s : State) (ms : Nat) : (emitDelay ms s).drawPos = s.drawPos := rfl
@[simp] theorem emitDelay_commands (s : State) (ms : Nat) : (emitDelay ms s).commands = s.commands := rfl
@[simp] theorem emitDelay_index (s : State) (ms : Nat) : (emitDelay ms s).index = s.index := rfl

/-! ### The oracle's update -/

theorem draw_state (s : State) :
    (draw s).2 = { s with draws := s.draws.tail, drawPos := s.drawPos + 1 } := by
  unfold draw
  cases s.draws with
  | nil => simp
  | cons d rest => rfl

/-! ### Reset -/

@[simp] theorem launched_begun (l : Launch) (c : Cfg) : (State.launched l c).begun = false := rfl

end Sys2Proof.Machine
end

