-- ==== Sys2Proof/Laws/Flow.lean ====
section
/-! SUPPORT. How operations are put together: sequence, repetition, raising, and one command (60_exceptions.md R250). -/

namespace Sys2Proof.Machine

@[simp] theorem Flow.bind_ok {α β : Type} (a : α) (s : State) (f : α → State → Flow β) :
    (Flow.ok a s).bind f = f a s := rfl

@[simp] theorem Flow.bind_raised {α β : Type} (s : State) (f : α → State → Flow β) :
    (Flow.raised s : Flow α).bind f = .raised s := rfl

@[simp] theorem raise_bind {α β : Type} (e : Fault) (s : State) (f : α → State → Flow β) :
    (raise e s : Flow α).bind f = raise e s := rfl

@[simp] theorem Flow.state_ok {α : Type} (a : α) (s : State) : (Flow.ok a s).state = s := rfl

@[simp] theorem Flow.state_raised {α : Type} (s : State) : (Flow.raised s : Flow α).state = s := rfl

@[simp] theorem raise_state {α : Type} (e : Fault) (s : State) :
    (raise e s : Flow α).state = { s with fault := some e } := rfl

theorem Flow.bind_assoc {α β γ : Type} (x : Flow α) (f : α → State → Flow β) (g : β → State → Flow γ) :
    (x.bind f).bind g = x.bind fun a s => (f a s).bind g := by
  cases x <;> rfl

@[simp] theorem Flow.each_nil {α : Type} (f : α → State → Flow Unit) (s : State) :
    Flow.each f [] s = .ok () s := rfl

theorem Flow.each_cons {α : Type} (f : α → State → Flow Unit) (a : α) (l : List α) (s : State) :
    Flow.each f (a :: l) s = (f a s).bind fun _ s => Flow.each f l s := rfl

theorem Flow.each_append {α : Type} (f : α → State → Flow Unit) (l m : List α) (s : State) :
    Flow.each f (l ++ m) s = (Flow.each f l s).bind fun _ s => Flow.each f m s := by
  induction l generalizing s with
  | nil => rfl
  | cons a l ih =>
    simp only [List.cons_append, Flow.each_cons, Flow.bind_assoc]
    congr 1
    funext _ t
    exact ih t

theorem Flow.each_map {α β : Type} (g : β → α) (f : α → State → Flow Unit) (l : List β) (s : State) :
    Flow.each f (l.map g) s = Flow.each (fun b => f (g b)) l s := by
  induction l generalizing s with
  | nil => rfl
  | cons b l ih =>
    simp only [List.map_cons, Flow.each_cons]
    congr 1
    funext _ t
    exact ih t

theorem runCommand_running {s : State} (h : s.fault = none) (body : State → Flow Unit) :
    runCommand s body = .next (body { s with result := none }).state := by
  simp [runCommand, h]

theorem runCommand_faulted {s : State} {f : Fault} (h : s.fault = some f) (body : State → Flow Unit) :
    runCommand s body = .fault f := by
  simp [runCommand, h]

/-- What one command can do: from a state without fault it answers the body's state, from a faulted one that fault. -/
theorem runCommand_next {s t : State} {body : State → Flow Unit} (h : runCommand s body = .next t) :
    s.fault = none ∧ t = (body { s with result := none }).state := by
  unfold runCommand at h
  split at h
  · cases h
  · rename_i h0
    cases h
    exact ⟨h0, rfl⟩

/-- The rest of a command may be replaced by one that agrees with it in every state it can start in. -/
theorem Flow.bind_congr {α β : Type} {R : State → Prop} {x : Flow α} {f g : α → State → Flow β}
    (hx : R x.state) (h : ∀ a s, R s → f a s = g a s) : x.bind f = x.bind g := by
  cases x with
  | ok a s => exact h a s hx
  | raised s => rfl

/-! ### What a relation of states that every operation keeps says of a whole command -/

/-- `x` ends, stopped or not, in a state that `R` relates to `s`. -/
def Flow.Within {α : Type} (R : State → Prop) (x : Flow α) : Prop := R x.state

theorem Flow.Within.bind {α β : Type} {R : State → Prop} {x : Flow α} {f : α → State → Flow β}
    (hx : x.Within R) (hf : ∀ a s, R s → (f a s).Within R) : (x.bind f).Within R := by
  cases x with
  | ok a s => exact hf a s hx
  | raised s => exact hx

theorem Flow.Within.each {α : Type} {R : State → Prop} {f : α → State → Flow Unit} {l : List α} {s : State}
    (hs : R s) (hf : ∀ a ∈ l, ∀ s, R s → (f a s).Within R) : (Flow.each f l s).Within R := by
  induction l generalizing s with
  | nil => exact hs
  | cons a l ih =>
    exact Flow.Within.bind (hf a (by simp) s hs)
      fun _ t ht => ih ht fun b hb => hf b (by simp [hb])

/-! ### An operation that stopped has recorded its fault -/

/-- If `x` was stopped, its state holds a fault (R250). -/
def Flow.Records {α : Type} (x : Flow α) : Prop := ∀ s, x = .raised s → s.fault ≠ none

theorem Flow.records_ok {α : Type} (a : α) (s : State) : (Flow.ok a s).Records := by
  intro t h
  cases h

theorem raise_records {α : Type} (f : Fault) (s : State) : (raise f s : Flow α).Records := by
  intro t h
  cases h
  simp

theorem Flow.Records.bind {α β : Type} {x : Flow α} {f : α → State → Flow β} (hx : x.Records)
    (hf : ∀ a s, (f a s).Records) : (x.bind f).Records := by
  cases x with
  | ok a s => exact hf a s
  | raised s =>
    intro t h
    cases h
    exact hx s rfl

theorem Flow.Records.each {α : Type} {f : α → State → Flow Unit} (hf : ∀ a s, (f a s).Records) (l : List α)
    (s : State) : (Flow.each f l s).Records := by
  induction l generalizing s with
  | nil => exact Flow.records_ok _ _
  | cons a l ih => exact (hf a s).bind fun _ t => ih t

end Sys2Proof.Machine
end

