-- ==== Sys2Proof/Laws/Output.lean ====
section
/-! SUPPORT. What the output operations do, once each: pins (40_display.md R125), transactions (60_exceptions.md R253),
channel groups (41_led_driver.md R155). -/

namespace Sys2Proof.Machine

/-! ### Pins -/

/-- Driving a list of pins appends its events and leaves the last levels; nothing else changes. -/
theorem drivePins_eq (l : List (Pin × Level)) (s : State) :
    drivePins l s =
      { s with
        pins := l.foldl (fun ps pb => ps.drive pb.1 pb.2) s.pins
        trace := s.trace ++ l.map fun pb => Event.pin pb.1 pb.2 } := by
  induction l generalizing s with
  | nil => simp [drivePins]
  | cons pb l ih =>
    have h : drivePins (pb :: l) s = drivePins l (drivePin pb.1 pb.2 s) := rfl
    rw [h, ih]
    simp [drivePin, State.record]

/-! ### Transactions -/

@[simp] theorem State.sent_fault (s : State) (ts : List Txn) : (s.sent ts).fault = s.fault := rfl
@[simp] theorem State.sent_pins (s : State) (ts : List Txn) : (s.sent ts).pins = s.pins := rfl
@[simp] theorem State.sent_anim (s : State) (ts : List Txn) : (s.sent ts).anim = s.anim := rfl
@[simp] theorem State.sent_buf (s : State) (ts : List Txn) : (s.sent ts).buf = s.buf := rfl
@[simp] theorem State.sent_result (s : State) (ts : List Txn) : (s.sent ts).result = s.result := rfl
@[simp] theorem State.sent_cfg (s : State) (ts : List Txn) : (s.sent ts).cfg = s.cfg := rfl
@[simp] theorem State.sent_launch (s : State) (ts : List Txn) : (s.sent ts).launch = s.launch := rfl
@[simp] theorem State.sent_activeChips (s : State) (ts : List Txn) :
    (s.sent ts).activeChips = s.activeChips := rfl
@[simp] theorem State.sent_nil (s : State) : s.sent [] = s := by simp [State.sent]

theorem State.sent_sent (s : State) (ts us : List Txn) : (s.sent ts).sent us = s.sent (ts ++ us) := by
  simp [State.sent]

theorem State.BusOk.mono {s : State} {m n : Nat} (h : s.BusOk n) (hm : m ≤ n) : s.BusOk m :=
  fun a ha => h a ((List.take_subset_take_left s.answers hm) ha)

/-- Once some transactions went out, the answers to the next ones are as they were. -/
theorem State.BusOk.sent {s : State} {ts : List Txn} {m n : Nat} (h : s.BusOk m) (hm : ts.length + n ≤ m) :
    (s.sent ts).BusOk n := by
  intro a ha
  apply h.mono hm
  rw [List.take_add]
  exact List.mem_append_right _ ha

/-- A transaction the transport answers `ok`. -/
theorem emitTxn_ok {s : State} (t : Txn) (h : s.BusOk 1) : emitTxn t s = .ok () (s.sent [t]) := by
  unfold emitTxn nextAnswer
  cases ha : s.answers with
  | nil => simp [State.sent, State.record, ha]
  | cons a rest =>
    have : a = .ok := h a (by simp [ha])
    subst this
    simp [State.sent, State.record, ha]

/-- A transaction the transport answers `fail`: the event stands, the command stops (R253). -/
theorem emitTxn_fail {s : State} (t : Txn) {rest : List BusAnswer} (h : s.answers = .fail :: rest) :
    emitTxn t s =
      .raised { s with trace := s.trace ++ [.txn t], answers := rest, fault := some (.busFault t) } := by
  unfold emitTxn nextAnswer
  rw [h]
  rfl

/-- A list of transactions all answered `ok`: every one is appended, in order, and nothing else changes. -/
theorem emitTxns_ok (ts : List Txn) {s : State} (h : s.BusOk ts.length) :
    Flow.each emitTxn ts s = .ok () (s.sent ts) := by
  induction ts generalizing s with
  | nil => simp
  | cons t ts ih =>
    rw [Flow.each_cons, emitTxn_ok t (h.mono (by simp)), Flow.bind_ok,
      ih (h.sent (by simp [Nat.add_comm])), State.sent_sent]
    rfl

/-- The first failing transaction of a list: the ones up to it are appended, none after it, and the command stops. -/
theorem emitTxns_fail (before : List Txn) (t : Txn) (after : List Txn) {s : State} {rest : List BusAnswer}
    (h : s.answers = List.replicate before.length .ok ++ .fail :: rest) :
    Flow.each emitTxn (before ++ t :: after) s =
      .raised
        { s with
          trace := s.trace ++ (before ++ [t]).map .txn
          answers := rest
          fault := some (.busFault t) } := by
  induction before generalizing s with
  | nil =>
    rw [List.nil_append, Flow.each_cons, emitTxn_fail t (by simpa using h)]
    rfl
  | cons b before ih =>
    have hb : s.BusOk 1 := by
      intro a ha
      rw [h] at ha
      simpa [List.replicate_succ] using ha
    rw [List.cons_append, Flow.each_cons, emitTxn_ok b hb]
    rw [Flow.bind_ok, ih (by simp [State.sent, h, List.replicate_succ])]
    simp [State.sent]

theorem emitGroup_eq (chip : BusAddr) (g : TxnGroup) (s : State) :
    emitGroup chip g s = Flow.each emitTxn (groupOf chip g) s := by
  rw [groupOf, Flow.each_map]
  rfl

/-! ### Channel groups -/

theorem readPixelOrder_legal {s : State} {o : PixelOrder} (h : pixelOrder s.cfg.pixelOrder = some o) :
    readPixelOrder s = .ok o s := by
  simp [readPixelOrder, h]

theorem readPixelOrder_illegal {s : State} (h : pixelOrder s.cfg.pixelOrder = none) :
    readPixelOrder s = raise (.pixelOrder s.cfg.pixelOrder) s := by
  simp [readPixelOrder, h]

@[simp] theorem groupTxns_length (p : OpenParams) (g : GammaTable) (o : PixelOrder) (chip : BusAddr)
    (base : Nat) (color : Color) : (groupTxns p g o chip base color).length = 3 := by
  unfold groupTxns
  cases p.slotLayout <;> rfl

theorem groupTxns_eq (p : OpenParams) (g : GammaTable) (o : PixelOrder) (chip : BusAddr) (base : Nat)
    (color : Color) :
    groupTxns p g o chip base color =
      (slotOrder p.slotLayout o).map fun jx => slotTxn g chip base color jx.1 jx.2 := by
  unfold groupTxns slotOrder
  cases p.slotLayout <;> rfl

theorem setLed_eq {s : State} {o : PixelOrder} (h : pixelOrder s.cfg.pixelOrder = some o)
    (chip : BusAddr) (base : Nat) (color : Color) :
    setLed chip base color s =
      if base > 250 then raise (.registerRange base) s
      else
        (Flow.each emitTxn (groupTxns s.launch.params s.launch.gamma o chip base color) s).bind fun _ s =>
        .ok (base + 2 * lastSlot s.launch.params.slotLayout o) s := by
  rw [setLed, readPixelOrder_legal h, Flow.bind_ok, groupTxns_eq, Flow.each_map]

/-- A channel group that goes out: three transactions, and the register of the last (R155). -/
theorem setLed_ok {s : State} {o : PixelOrder} (h : pixelOrder s.cfg.pixelOrder = some o)
    (chip : BusAddr) {base : Nat} (hb : base ≤ 250) (color : Color) (bus : s.BusOk 3) :
    setLed chip base color s =
      .ok (base + 2 * lastSlot s.launch.params.slotLayout o)
        (s.sent (groupTxns s.launch.params s.launch.gamma o chip base color)) := by
  rw [setLed_eq h, if_neg (by omega), emitTxns_ok _ (by simpa using bus)]
  rfl

theorem setLed_illegal {s : State} (h : pixelOrder s.cfg.pixelOrder = none) (chip : BusAddr) (base : Nat)
    (color : Color) :
    setLed chip base color s = raise (.pixelOrder s.cfg.pixelOrder) s := by
  rw [setLed, readPixelOrder_illegal h, raise_bind]

end Sys2Proof.Machine
end

