-- ==== Sys2Proof/Laws/Frame.lean ====
section
/-! SUPPORT. What each operation leaves unchanged, whether or not a fault stops it: the relations are kept by every
operation, so a command's frame is one application of `runCommand_next`. -/

namespace Sys2Proof.Machine

/-- From `s` to `t` only transactions to chips in `A` went out, the transport's answers were used up in order, and at
most a fault other than the model's own was raised. -/
structure Sends (A : BusAddr → Prop) (s t : State) : Prop where
  pins : t.pins = s.pins
  anim : t.anim = s.anim
  result : t.result = s.result
  cfg : t.cfg = s.cfg
  launch : t.launch = s.launch
  draws : t.draws = s.draws
  drawPos : t.drawPos = s.drawPos
  commands : t.commands = s.commands
  index : t.index = s.index
  buf : t.buf = s.buf
  trace : ∃ es : List Event, t.trace = s.trace ++ es ∧
    ∀ e ∈ es, (∃ ms, e = .delay ms) ∨ ∃ x : Txn, e = .txn x ∧ A x.chip
  answers : ∃ n, t.answers = s.answers.drop n
  fault : t.fault = s.fault ∨ ∃ f, t.fault = some f ∧ ∀ i, f ≠ .romHole i

theorem Sends.refl (A : BusAddr → Prop) (s : State) : Sends A s s where
  pins := rfl
  anim := rfl
  result := rfl
  cfg := rfl
  launch := rfl
  draws := rfl
  drawPos := rfl
  commands := rfl
  index := rfl
  buf := rfl
  trace := ⟨[], by simp⟩
  answers := ⟨0, by simp⟩
  fault := .inl rfl

theorem Sends.trans {A : BusAddr → Prop} {s t u : State} (h : Sends A s t) (k : Sends A t u) : Sends A s u where
  pins := k.pins.trans h.pins
  anim := k.anim.trans h.anim
  result := k.result.trans h.result
  cfg := k.cfg.trans h.cfg
  launch := k.launch.trans h.launch
  draws := k.draws.trans h.draws
  drawPos := k.drawPos.trans h.drawPos
  commands := k.commands.trans h.commands
  index := k.index.trans h.index
  buf := k.buf.trans h.buf
  trace := by
    obtain ⟨es, he, ha⟩ := h.trace
    obtain ⟨fs, hf, hb⟩ := k.trace
    refine ⟨es ++ fs, by rw [hf, he, List.append_assoc], fun e hin => ?_⟩
    exact (List.mem_append.mp hin).elim (ha e) (hb e)
  answers := by
    obtain ⟨m, hm⟩ := h.answers
    obtain ⟨n, hn⟩ := k.answers
    exact ⟨m + n, by rw [hn, hm, List.drop_drop]⟩
  fault := by
    rcases k.fault with hk | hk
    · rcases h.fault with hh | hh
      · exact .inl (hk.trans hh)
      · exact .inr (by rw [hk]; exact hh)
    · exact .inr hk

/-- A fault other than the model's own is within `Sends`. -/
theorem Sends.raise {A : BusAddr → Prop} {s t : State} (h : Sends A s t) {f : Fault}
    (hf : ∀ i, f ≠ .romHole i) : Sends A s { t with fault := some f } :=
  h.trans
    { Sends.refl A t with
      pins := rfl, anim := rfl, result := rfl, cfg := rfl, launch := rfl, draws := rfl, drawPos := rfl
      commands := rfl, index := rfl, buf := rfl, trace := ⟨[], by simp⟩, answers := ⟨0, by simp⟩
      fault := .inr ⟨f, rfl, hf⟩ }

theorem nextAnswer_drop (l : List BusAnswer) : (nextAnswer l).2 = l.drop 1 := by
  cases l <;> rfl

theorem emitTxn_sends {A : BusAddr → Prop} (t : Txn) (h : A t.chip) (s : State) :
    (emitTxn t s).Within (Sends A s) := by
  have sent : Sends A s (State.record (.txn t) { s with answers := (nextAnswer s.answers).2 }) :=
    { Sends.refl A s with
      pins := rfl, anim := rfl, result := rfl, cfg := rfl, launch := rfl, draws := rfl, drawPos := rfl
      commands := rfl, index := rfl, buf := rfl
      trace := ⟨[.txn t], rfl, by simpa using h⟩
      answers := ⟨1, by simp [State.record, nextAnswer_drop]⟩
      fault := .inl rfl }
  unfold emitTxn
  dsimp only
  split
  · exact sent
  · exact sent.raise (by intro i hi; cases hi)

/-- An operation within `Sends A`, started later. -/
theorem Flow.Within.after {α : Type} {A : BusAddr → Prop} {s t : State} {x : Flow α} (h : Sends A s t)
    (k : x.Within (Sends A t)) : x.Within (Sends A s) := h.trans k

theorem emitTxns_sends {A : BusAddr → Prop} (ts : List Txn) (h : ∀ t ∈ ts, A t.chip) (s : State) :
    (Flow.each emitTxn ts s).Within (Sends A s) :=
  Flow.Within.each (Sends.refl A s) fun x hx t ht => (emitTxn_sends x (h x hx) t).after ht

theorem emitGroup_sends {A : BusAddr → Prop} (chip : BusAddr) (h : A chip) (g : TxnGroup) (s : State) :
    (emitGroup chip g s).Within (Sends A s) :=
  Flow.Within.each (Sends.refl A s) fun _ _ t ht => (emitTxn_sends _ h t).after ht

theorem readPixelOrder_sends (A : BusAddr → Prop) (s : State) :
    (readPixelOrder s).Within (Sends A s) := by
  unfold readPixelOrder
  split
  · exact Sends.refl A s
  · exact (Sends.refl A s).raise (by intro i hi; cases hi)

theorem setLed_sends {A : BusAddr → Prop} (chip : BusAddr) (h : A chip) (base : Nat) (color : Color) (s : State) :
    (setLed chip base color s).Within (Sends A s) := by
  refine Flow.Within.bind (readPixelOrder_sends A s) fun o t ht => ?_
  split
  · exact ht.raise (by intro i hi; cases hi)
  · refine Flow.Within.bind (Flow.Within.each ht fun _ _ u hu => (emitTxn_sends _ h u).after hu) ?_
    exact fun _ u hu => hu

theorem blankChip_sends {A : BusAddr → Prop} (c : Chip) (h : A c.addr) (s : State) :
    (blankChip c s).Within (Sends A s) := emitGroup_sends _ h _ s

theorem initChip_sends {A : BusAddr → Prop} (c : Chip) (h : A c.addr) (s : State) :
    (initChip c s).Within (Sends A s) :=
  (emitGroup_sends _ h _ s).bind fun _ t ht =>
  ((emitGroup_sends _ h _ t).after ht).bind fun _ u hu =>
  ((emitGroup_sends _ h _ u).after hu).bind fun _ v hv =>
  ((emitGroup_sends _ h _ v).after hv).bind fun _ w hw =>
  (emitGroup_sends _ h _ w).after hw

theorem emitDelay_sends (A : BusAddr → Prop) (ms : Nat) (s : State) : Sends A s (emitDelay ms s) :=
  { Sends.refl A s with
    pins := rfl, anim := rfl, result := rfl, cfg := rfl, launch := rfl, draws := rfl, drawPos := rfl
    commands := rfl, index := rfl, buf := rfl
    trace := ⟨[.delay ms], rfl, by simp⟩
    answers := ⟨0, by simp⟩
    fault := .inl rfl }

theorem selfTestChip_sends {A : BusAddr → Prop} (c : Chip) (h : A c.addr) (s : State) :
    (selfTestChip c s).Within (Sends A s) := by
  refine Flow.Within.bind (Flow.Within.each (Sends.refl A s) fun w _ t ht => ?_)
    fun _ t ht => (blankChip_sends c h t).after ht
  exact Flow.Within.bind ((emitGroup_sends _ h _ t).after ht) fun _ u hu =>
    hu.trans (emitDelay_sends A _ u)

theorem emitTxn_records (t : Txn) (s : State) : (emitTxn t s).Records := by
  unfold emitTxn
  dsimp only
  split
  · exact Flow.records_ok _ _
  · exact raise_records _ _

theorem setLed_records (chip : BusAddr) (base : Nat) (color : Color) (s : State) :
    (setLed chip base color s).Records := by
  refine Flow.Records.bind ?_ fun o t => ?_
  · unfold readPixelOrder
    split
    · exact Flow.records_ok _ _
    · exact raise_records _ _
  · split
    · exact raise_records _ _
    · exact (Flow.Records.each (fun _ u => emitTxn_records _ u) _ _).bind fun _ u => Flow.records_ok _ _

/-- A chip index names an active chip, or raises `NoChip`; nothing else happens (41_led_driver.md R157). -/
theorem readChip_cases (index : BitVec 4) (s : State) :
    (∃ c ∈ s.activeChips, s.activeChips[index.toNat]? = some c ∧ readChip index s = .ok c s) ∨
      (s.activeChips[index.toNat]? = none ∧ readChip index s = raise (.noChip index) s) := by
  unfold readChip
  cases h : s.activeChips[index.toNat]? with
  | none => exact .inr ⟨rfl, rfl⟩
  | some c => exact .inl ⟨c, List.mem_of_getElem? h, rfl, rfl⟩

theorem readChip_ok {index : BitVec 4} {s : State} {c : Chip} (h : s.activeChips[index.toNat]? = some c) :
    readChip index s = .ok c s := by
  unfold readChip
  rw [h]

/-! ### Chip initialisation and the self-test in closed form (41_led_driver.md R160, R163) -/

/-- The transactions of `Init(chip)`, in order (R160). -/
def initTxns (c : Chip) (cfg : Cfg) : List Txn :=
  groupOf c.addr c.resetTxns ++ groupOf c.addr c.scaleTxns ++ groupOf c.addr c.blankTxns ++
    groupOf c.addr (ceilingOf c cfg.overdriveOn) ++ groupOf c.addr c.normalTxns

theorem initChip_eq (c : Chip) (s : State) : initChip c s = Flow.each emitTxn (initTxns c s.cfg) s := by
  have before : initChip c s =
      (Flow.each emitTxn
        (groupOf c.addr c.resetTxns ++ groupOf c.addr c.scaleTxns ++ groupOf c.addr c.blankTxns) s).bind
      fun _ t => (emitGroup c.addr (ceilingOf c t.cfg.overdriveOn) t).bind
        fun _ t => emitGroup c.addr c.normalTxns t := by
    unfold initChip blankChip
    simp only [Flow.each_append, Flow.bind_assoc, emitGroup_eq]
  rw [before, Flow.bind_congr (emitTxns_sends (A := fun _ => True) _ (by simp) s)
    (g := fun _ t => Flow.each emitTxn
      (groupOf c.addr (ceilingOf c s.cfg.overdriveOn) ++ groupOf c.addr c.normalTxns) t)]
  · rw [← Flow.each_append, initTxns, List.append_assoc _ (groupOf c.addr (ceilingOf c s.cfg.overdriveOn))]
  · intro _ t ht
    simp only [Flow.each_append, emitGroup_eq, ht.cfg]

/-- The windows that go out: each one's transactions and its delay, in order. -/
theorem testWindows_ok (c : Chip) (ws : List Window) {s : State}
    (bus : s.BusOk (ws.flatMap fun w => groupOf c.addr w.writes).length) :
    Flow.each (testWindow c) ws s =
      .ok ()
        { s with
          answers := s.answers.drop (ws.flatMap fun w => groupOf c.addr w.writes).length
          trace := s.trace ++ ws.flatMap fun w =>
            (groupOf c.addr w.writes).map Event.txn ++ [.delay s.launch.params.selfTestDelayMs] } := by
  induction ws generalizing s with
  | nil => simp
  | cons w ws ih =>
    simp only [List.flatMap_cons, List.length_append] at bus ⊢
    rw [Flow.each_cons, testWindow, emitGroup_eq, emitTxns_ok _ (bus.mono (by omega)), Flow.bind_ok,
      Flow.bind_ok, ih]
    · simp [State.sent, emitDelay, State.record, List.drop_drop]
    · exact State.BusOk.sent bus (Nat.le_refl _)

end Sys2Proof.Machine
end

