-- ==== Sys2Proof/Laws/Blit.lean ====
section
/-! SUPPORT. The Channel Buffer, Blit and Blank: what they do once, in closed form (43_animation.md R215, R217, R218), and
what they leave unchanged. -/

namespace Sys2Proof.Machine

/-! ### The Channel Buffer -/

theorem State.buf_self {s : State} {b : List Color} (h : s.buf = b) : { s with buf := b } = s := by
  rw [← h]

/-- A push never leaves more than the capacity where there was no more before (20_memory.md R65). -/
theorem fifoPush_length {cap : Nat} {l : List Color} (c : Color) (hc : 0 < cap) (h : l.length ≤ cap) :
    (fifoPush cap l c).length ≤ cap := by
  unfold fifoPush
  split <;> simp <;> omega

/-- A frame leaves everything but the buffer unchanged. -/
theorem pushFrame_eq (f : Group → Color) (s : State) :
    pushFrame f s = { s with buf := groups.foldl (fun b g => fifoPush Config.bufCap b (f g)) s.buf } := by
  have h : ∀ (l : List Group) (s : State), l.foldl (fun s g => bufPush (f g) s) s =
      { s with buf := l.foldl (fun b g => fifoPush Config.bufCap b (f g)) s.buf } := by
    intro l
    induction l with
    | nil => intro s; rfl
    | cons g l ih => intro s; rw [List.foldl_cons, ih]; rfl
  exact h groups s

theorem foldl_push_empty (f : Group → Color) :
    groups.foldl (fun b g => fifoPush Config.bufCap b (f g)) [] = frameOf f := by
  have h : groups = [0, 1, 2, 3, 4, 5, 6] := by decide
  rw [h]
  simp [fifoPush, frameOf]

/-- From an empty buffer a frame leaves groups 1 to 6: the push of group 6 evicts group 0 (R218). -/
theorem pushFrame_empty (f : Group → Color) {s : State} (h : s.buf = []) :
    pushFrame f s = { s with buf := frameOf f } := by
  rw [pushFrame_eq, h, foldl_push_empty]

theorem fill_empty (c : Color) {s : State} (h : s.buf = []) :
    fill c s = { s with buf := List.replicate 6 c } := pushFrame_empty _ h

theorem sparkleFill_empty (active : List Group) (c : Color) {s : State} (h : s.buf = []) :
    sparkleFill active c s =
      { s with buf := frameOf fun g => if g ∈ active then c else black } := pushFrame_empty _ h

theorem pushFrame_bound (f : Group → Color) {s : State} (h : s.buf.length ≤ Config.bufCap) :
    (pushFrame f s).buf.length ≤ Config.bufCap := by
  rw [pushFrame_eq]
  have key : ∀ (l : List Group) (b : List Color), b.length ≤ Config.bufCap →
      (l.foldl (fun b g => fifoPush Config.bufCap b (f g)) b).length ≤ Config.bufCap := by
    intro l
    induction l with
    | nil => intro b hb; exact hb
    | cons g l ih => intro b hb; exact ih _ (fifoPush_length _ (by decide) hb)
  exact key groups s.buf h

/-! ### Blit in closed form -/

theorem lastSlot_stride (p : OpenParams) (o : PixelOrder) (base : Nat) :
    base + 2 * lastSlot p.slotLayout o + Config.nextOffset = base + groupStride p o := by
  unfold lastSlot groupStride
  cases p.slotLayout <;> simp <;> omega

/-- The call plan of one entry: the chips with the base each gets. -/
def entryTxns (p : OpenParams) (g : GammaTable) (o : PixelOrder) (c : Color) (base : Nat) (step : Nat)
    (chips : List Chip) : List Txn :=
  (chips.zipIdx).flatMap fun (chip, j) => groupTxns p g o chip.addr (base + step * j) c

theorem entryTxns_cons (p : OpenParams) (g : GammaTable) (o : PixelOrder) (c : Color) (base step : Nat)
    (chip : Chip) (rest : List Chip) :
    entryTxns p g o c base step (chip :: rest) =
      groupTxns p g o chip.addr base c ++ entryTxns p g o c (base + step) step rest := by
  simp only [entryTxns, List.zipIdx_cons, List.flatMap_cons, Nat.mul_zero, Nat.add_zero, Nat.zero_add]
  congr 1
  rw [List.zipIdx_succ, List.flatMap_map]
  apply List.flatMap_congr
  rintro ⟨a, j⟩ -
  simp only [Nat.mul_add, Nat.mul_one]
  congr 1
  omega

theorem entryTxns_length (p : OpenParams) (g : GammaTable) (o : PixelOrder) (c : Color) (base step : Nat)
    (chips : List Chip) : (entryTxns p g o c base step chips).length = 3 * chips.length := by
  induction chips generalizing base with
  | nil => rfl
  | cons chip rest ih => rw [entryTxns_cons, List.length_append, ih]; simp; omega

theorem sendPerCall_ok {s : State} {o : PixelOrder} (ho : pixelOrder s.cfg.pixelOrder = some o) (c : Color)
    (chips : List Chip) (base : Nat)
    (fit : ∀ j < chips.length, base + groupStride s.launch.params o * j ≤ 250)
    (bus : s.BusOk (3 * chips.length)) :
    sendPerCall c chips base s =
      .ok (base + groupStride s.launch.params o * chips.length)
        (s.sent (entryTxns s.launch.params s.launch.gamma o c base (groupStride s.launch.params o) chips)) := by
  induction chips generalizing base s with
  | nil => simp [sendPerCall, entryTxns]
  | cons chip rest ih =>
    have hb : base ≤ 250 := by simpa using fit 0 (by simp)
    rw [sendPerCall, setLed_ok ho _ hb _ (bus.mono (by simp)), Flow.bind_ok, lastSlot_stride, ih (by exact ho)]
    · rw [State.sent_sent, State.sent_launch, ← entryTxns_cons, List.length_cons, Nat.mul_add]
      congr 1
      omega
    · intro j hj
      have := fit (j + 1) (by simpa using hj)
      rw [Nat.mul_add] at this
      rw [State.sent_launch]
      omega
    · exact bus.sent (by simp; omega)

theorem sendPerEntry_ok {s : State} {o : PixelOrder} (ho : pixelOrder s.cfg.pixelOrder = some o) (c : Color)
    (base : Nat) (chips : List Chip) (next : Nat) (fit : chips ≠ [] → base ≤ 250)
    (bus : s.BusOk (3 * chips.length)) :
    sendPerEntry c base chips next s =
      .ok (if chips = [] then next else base + groupStride s.launch.params o)
        (s.sent (entryTxns s.launch.params s.launch.gamma o c base 0 chips)) := by
  induction chips generalizing next s with
  | nil => simp [sendPerEntry, entryTxns]
  | cons chip rest ih =>
    rw [sendPerEntry, setLed_ok ho _ (fit (by simp)) _ (bus.mono (by simp)), Flow.bind_ok,
      lastSlot_stride, ih (by exact ho) _ (fun _ => fit (by simp)) (bus.sent (by simp; omega)), State.sent_sent,
      State.sent_launch, entryTxns_cons, Nat.add_zero]
    simp

/-- How far the threaded base moves per entry, and per chip inside one (R215). -/
def entryStride (p : OpenParams) (o : PixelOrder) (k : Nat) : Nat :=
  match p.blitThreading with
  | .perCall => groupStride p o * k
  | .perEntry => if k = 0 then 0 else groupStride p o

def chipStride (p : OpenParams) (o : PixelOrder) : Nat :=
  match p.blitThreading with
  | .perCall => groupStride p o
  | .perEntry => 0

/-- One entry that goes out to every active chip. -/
theorem sendEntry_ok {s : State} {o : PixelOrder} (ho : pixelOrder s.cfg.pixelOrder = some o) (c : Color)
    (base : Nat)
    (fit : ∀ j < s.activeChips.length, base + chipStride s.launch.params o * j ≤ 250)
    (bus : s.BusOk (3 * s.activeChips.length)) :
    sendEntry c base s =
      .ok (base + entryStride s.launch.params o s.activeChips.length)
        (s.sent (entryTxns s.launch.params s.launch.gamma o c base (chipStride s.launch.params o)
          s.activeChips)) := by
  unfold sendEntry entryStride
  unfold chipStride at *
  cases h : s.launch.params.blitThreading with
  | perCall =>
    simp only [h] at fit
    exact sendPerCall_ok ho c _ base fit bus
  | perEntry =>
    simp only [h] at fit
    simp only [sendPerEntry_ok ho c base s.activeChips base
      (fun hne => by simpa using fit 0 (List.length_pos_iff.mpr hne)) bus, List.length_eq_zero_iff]
    split <;> simp_all

/-- The plan of several entries, from a base. -/
def drainTxns (p : OpenParams) (g : GammaTable) (o : PixelOrder) (chips : List Chip) :
    Nat → List Color → List Txn
  | _, [] => []
  | base, c :: cs =>
    entryTxns p g o c base (chipStride p o) chips ++
      drainTxns p g o chips (base + entryStride p o chips.length) cs

theorem drainTxns_length (p : OpenParams) (g : GammaTable) (o : PixelOrder) (chips : List Chip) (base : Nat)
    (cs : List Color) : (drainTxns p g o chips base cs).length = 3 * chips.length * cs.length := by
  induction cs generalizing base with
  | nil => rfl
  | cons c cs ih =>
    rw [drainTxns, List.length_append, entryTxns_length, ih, List.length_cons, Nat.mul_add]; omega

theorem drain_ok {o : PixelOrder} (cs : List Color) (base : Nat) {s : State} (hbuf : s.buf = cs)
    (ho : pixelOrder s.cfg.pixelOrder = some o)
    (fit : ∀ n < cs.length, ∀ j < s.activeChips.length,
      base + entryStride s.launch.params o s.activeChips.length * n + chipStride s.launch.params o * j ≤ 250)
    (bus : s.BusOk (3 * s.activeChips.length * cs.length)) :
    drain cs.length base s =
      .ok ()
        (State.sent (drainTxns s.launch.params s.launch.gamma o s.activeChips base cs)
          { s with buf := [] }) := by
  induction cs generalizing base s with
  | nil =>
    rw [State.buf_self hbuf]
    simp [drain, drainTxns]
  | cons c cs ih =>
    have hlen : 3 * s.activeChips.length * (c :: cs).length =
        3 * s.activeChips.length + 3 * s.activeChips.length * cs.length := by
      rw [List.length_cons, Nat.mul_add]; omega
    have hone := sendEntry_ok (s := { s with buf := cs }) ho c base
      (fun j hj => by simpa using fit 0 (by simp) j hj)
      (bus.mono (m := 3 * s.activeChips.length) (by omega))
    have act : State.activeChips { s with buf := cs } = s.activeChips := rfl
    rw [act] at hone
    rw [List.length_cons, drain, bufPop, hbuf]
    simp only [hone, Flow.bind_ok]
    have hrest := ih (base + entryStride s.launch.params o s.activeChips.length)
      (s := State.sent (entryTxns s.launch.params s.launch.gamma o c base (chipStride s.launch.params o)
        s.activeChips) { s with buf := cs }) rfl ho
      (by
        intro n hn j hj
        have := fit (n + 1) (by simpa using hn) j hj
        rw [Nat.mul_add, Nat.mul_one] at this
        show base + entryStride s.launch.params o s.activeChips.length +
          entryStride s.launch.params o s.activeChips.length * n + chipStride s.launch.params o * j ≤ 250
        omega)
      (State.BusOk.sent (s := { s with buf := cs }) bus (by
        rw [entryTxns_length, hlen]
        exact Nat.le_refl _))
    rw [hrest]
    show Flow.ok () (State.sent _ (State.sent _ { s with buf := [] })) = _
    rw [State.sent_sent]
    rfl

theorem drainTxns_closed (p : OpenParams) (g : GammaTable) (o : PixelOrder) (chips : List Chip)
    (cs : List Color) (base m : Nat) (hb : base = p.firstBase.toNat + entryStride p o chips.length * m) :
    drainTxns p g o chips base cs =
      (cs.zipIdx m).flatMap fun (c, n) =>
        chips.zipIdx.flatMap fun (chip, j) =>
          groupTxns p g o chip.addr (callBase p o chips.length n j) c := by
  induction cs generalizing base m with
  | nil => rfl
  | cons c cs ih =>
    rw [drainTxns, List.zipIdx_cons, List.flatMap_cons, ih _ (m + 1) (by rw [hb, Nat.mul_add]; omega)]
    congr 1
    unfold entryTxns
    apply List.flatMap_congr
    rintro ⟨chip, j⟩ hmem
    have hk : chips.length ≠ 0 := by
      intro h0
      simp [List.length_eq_zero_iff.mp h0] at hmem
    rw [hb]
    unfold callBase entryStride chipStride
    cases p.blitThreading with
    | perCall => simp only [Nat.mul_add, Nat.mul_assoc, Nat.add_assoc]
    | perEntry => simp only [if_neg hk, Nat.zero_mul, Nat.add_zero]

theorem callBase_eq (p : OpenParams) (o : PixelOrder) {k : Nat} (n : Nat) {j : Nat} (hj : j < k) :
    callBase p o k n j = p.firstBase.toNat + entryStride p o k * n + chipStride p o * j := by
  unfold callBase entryStride chipStride
  cases p.blitThreading with
  | perCall => simp only [Nat.mul_add, Nat.mul_assoc]; omega
  | perEntry => simp only [if_neg (show k ≠ 0 by omega)]; omega

theorem blitTxns_length (p : OpenParams) (g : GammaTable) (o : PixelOrder) (chips : List Chip)
    (cs : List Color) : (blitTxns p g o chips cs).length = 3 * chips.length * cs.length := by
  rw [← drainTxns_length p g o chips p.firstBase.toNat cs,
    drainTxns_closed p g o chips cs _ 0 (by simp)]
  rfl

/-- A Blit that goes out: the buffer is drained, its plan is sent, and nothing else changes (R215, R217). -/
theorem blitBuffer_ok {s : State} {o : PixelOrder} (ho : pixelOrder s.cfg.pixelOrder = some o)
    (fit : BlitFits s.launch.params o s.activeChips.length s.buf.length)
    (bus : s.BusOk (3 * s.activeChips.length * s.buf.length)) :
    blitBuffer s =
      .ok ()
        (State.sent (blitTxns s.launch.params s.launch.gamma o s.activeChips s.buf) { s with buf := [] }) := by
  rw [blitBuffer, drain_ok s.buf _ rfl ho _ bus, drainTxns_closed _ _ _ _ _ _ 0 (by simp)]
  · rfl
  · intro n hn j hj
    rw [← callBase_eq _ _ n hj]
    exact fit n hn j hj

/-- A Blit of an empty buffer changes nothing (R216). -/
theorem blitBuffer_nil {s : State} (h : s.buf = []) : blitBuffer s = .ok () s := by
  simp [blitBuffer, h, drain]

theorem drain_noChips {s : State} (h : s.activeChips = []) (cs : List Color) (base : Nat) (hb : s.buf = cs) :
    drain cs.length base s = .ok () { s with buf := [] } := by
  induction cs generalizing s base with
  | nil =>
    rw [State.buf_self hb]
    rfl
  | cons c cs ih =>
    have hs : ∀ b, sendEntry c b { s with buf := cs } = .ok b { s with buf := cs } := by
      intro b
      have h' : State.activeChips { s with buf := cs } = [] := h
      unfold sendEntry
      rw [h']
      split <;> rfl
    rw [List.length_cons, drain, bufPop, hb]
    simp only [hs, Flow.bind_ok]
    rw [ih (s := { s with buf := cs }) h _ rfl]

/-- With no active chip a Blit drains the buffer and sends nothing (R215). -/
theorem blitBuffer_noChips {s : State} (h : s.activeChips = []) : blitBuffer s = .ok () { s with buf := [] } :=
  drain_noChips h s.buf _ rfl

/-! ### Blanking in closed form -/

theorem each_blank (chips : List Chip) (s : State) :
    Flow.each blankChip chips s = Flow.each emitTxn (blankTxns chips) s := by
  induction chips generalizing s with
  | nil => rfl
  | cons c rest ih =>
    rw [Flow.each_cons, blankTxns, List.flatMap_cons, Flow.each_append, ← emitGroup_eq]
    show (emitGroup c.addr c.blankTxns s).bind _ = _
    congr 1
    funext _ t
    exact ih t

/-- Blanking that goes out (R159, R204). -/
theorem blankAll_ok {s : State} (bus : s.BusOk (blankTxns s.activeChips).length) :
    blankAll s = .ok () (s.sent (blankTxns s.activeChips)) := by
  rw [blankAll, each_blank, emitTxns_ok _ bus]

/-! ### What they leave unchanged -/

theorem Sends.activeChips {A : BusAddr → Prop} {s t : State} (h : Sends A s t) :
    t.activeChips = s.activeChips := by
  simp [State.activeChips, h.cfg, h.launch]

theorem sendPerCall_sends {A : BusAddr → Prop} (c : Color) (chips : List Chip) (h : ∀ x ∈ chips, A x.addr)
    (base : Nat) (s : State) : (sendPerCall c chips base s).Within (Sends A s) := by
  induction chips generalizing base s with
  | nil => exact Sends.refl A s
  | cons x rest ih =>
    exact (setLed_sends _ (h x (by simp)) _ _ s).bind fun r t ht =>
      (ih (fun y hy => h y (by simp [hy])) _ t).after ht

theorem sendPerEntry_sends {A : BusAddr → Prop} (c : Color) (base : Nat) (chips : List Chip)
    (h : ∀ x ∈ chips, A x.addr) (next : Nat) (s : State) :
    (sendPerEntry c base chips next s).Within (Sends A s) := by
  induction chips generalizing next s with
  | nil => exact Sends.refl A s
  | cons x rest ih =>
    exact (setLed_sends _ (h x (by simp)) _ _ s).bind fun r t ht =>
      (ih (fun y hy => h y (by simp [hy])) _ t).after ht

theorem sendEntry_sends {A : BusAddr → Prop} (c : Color) (base : Nat) (s : State)
    (h : ∀ x ∈ s.activeChips, A x.addr) : (sendEntry c base s).Within (Sends A s) := by
  unfold sendEntry
  split
  · exact sendPerCall_sends c _ h _ s
  · exact sendPerEntry_sends c _ _ h _ s

/-- The buffer may be replaced before or after operations that do not touch it. -/
theorem Sends.withBuf {A : BusAddr → Prop} {s t : State} (h : Sends A s t) (b : List Color) :
    Sends A { s with buf := b } { t with buf := b } :=
  { h with buf := rfl, trace := h.trace, answers := h.answers, fault := h.fault }

/-- Entries leave the buffer oldest first and are sent to active chips; whatever stops it, nothing else changes. -/
theorem drain_sends {A : BusAddr → Prop} (n base : Nat) (s : State) (h : ∀ x ∈ s.activeChips, A x.addr) :
    (drain n base s).Within fun t => ∃ m, Sends A { s with buf := s.buf.drop m } t := by
  induction n generalizing base s with
  | zero => exact ⟨0, Sends.refl A s⟩
  | succ n ih =>
    unfold drain bufPop
    cases hb : s.buf with
    | nil => exact ⟨0, by simpa [State.buf_self hb] using Sends.refl A s⟩
    | cons c rest =>
      have sent := sendEntry_sends (A := A) c base { s with buf := rest } h
      dsimp only
      cases hs : sendEntry c base { s with buf := rest } with
      | raised t => rw [hs] at sent; exact ⟨1, sent⟩
      | ok b t =>
        rw [hs] at sent
        replace sent : Sends A { s with buf := rest } t := sent
        obtain ⟨m, hm⟩ := ih b t (by rw [sent.activeChips]; exact h)
        refine ⟨m + 1, Sends.trans ?_ hm⟩
        have := sent.withBuf (t.buf.drop m)
        rwa [show t.buf = rest from sent.buf] at *

theorem blitBuffer_sends {A : BusAddr → Prop} (s : State) (h : ∀ x ∈ s.activeChips, A x.addr) :
    (blitBuffer s).Within fun t => ∃ m, Sends A { s with buf := s.buf.drop m } t := drain_sends _ _ s h

theorem blankAll_sends {A : BusAddr → Prop} (s : State) (h : ∀ x ∈ s.activeChips, A x.addr) :
    (blankAll s).Within (Sends A s) :=
  Flow.Within.each (Sends.refl A s) fun c hc t ht => (blankChip_sends c (h c hc) t).after ht

/-- BEGIN's frame replaces the buffer by at most 6 entries and is sent to active chips; nothing else changes. -/
theorem flatFrame_sends (A : BusAddr → Prop) (c : Color) {s : State} (h : ∀ x ∈ s.activeChips, A x.addr)
    (hb : s.buf.length ≤ Config.bufCap) :
    (flatFrame c s).Within fun t => ∃ b, b.length ≤ Config.bufCap ∧ Sends A { s with buf := b } t := by
  have bound := pushFrame_bound (fun _ => c) hb
  obtain ⟨b, hf⟩ : ∃ b, fill c s = { s with buf := b } := ⟨_, pushFrame_eq _ _⟩
  change (fill c s).buf.length ≤ _ at bound
  unfold flatFrame
  rw [hf] at bound ⊢
  obtain ⟨m, hm⟩ := blitBuffer_sends { s with buf := b } h
  refine ⟨b.drop m, ?_, hm⟩
  rw [List.length_drop]
  exact Nat.le_trans (Nat.sub_le _ _) bound

theorem renderBegin_sends (A : BusAddr → Prop) (c : Color) {s : State} (h : ∀ x ∈ s.activeChips, A x.addr)
    (hb : s.buf.length ≤ Config.bufCap) :
    (renderBegin c s).Within fun t => ∃ b, b.length ≤ Config.bufCap ∧ Sends A { s with buf := b } t := by
  unfold renderBegin
  split
  · refine Flow.Within.bind (flatFrame_sends A c h hb) ?_
    rintro _ t ⟨b, hl, ht⟩
    exact ⟨b, hl, ht.trans (blankAll_sends t (by rw [ht.activeChips]; exact h))⟩
  · have blanked := blankAll_sends s h
    cases hx : blankAll s with
    | raised t => rw [hx] at blanked; exact ⟨s.buf, hb, blanked⟩
    | ok a t =>
      rw [hx] at blanked
      replace blanked : Sends A s t := blanked
      have framed := flatFrame_sends A c (s := t) (by rw [blanked.activeChips]; exact h)
        (by rw [blanked.buf]; exact hb)
      rw [Flow.bind_ok]
      generalize flatFrame c t = f at framed
      obtain ⟨b, hl, hf⟩ := framed
      exact ⟨b, hl, (blanked.withBuf b).trans hf⟩

/-! ### Every Blit that is not stopped ends with an empty buffer (43_animation.md R212) -/

theorem drain_empties {n base : Nat} {s t : State} (hn : s.buf.length ≤ n) (h : drain n base s = .ok () t) :
    t.buf = [] := by
  induction n generalizing base s with
  | zero =>
    cases h
    exact List.length_eq_zero_iff.mp (by omega)
  | succ n ih =>
    unfold drain bufPop at h
    cases hb : s.buf with
    | nil =>
      rw [hb] at h
      cases h
      exact hb
    | cons c rest =>
      rw [hb] at h
      simp only at h
      cases hs : sendEntry c base { s with buf := rest } with
      | raised u => rw [hs] at h; cases h
      | ok b u =>
        rw [hs] at h
        have hsend : Sends (fun _ => True) { s with buf := rest } u := by
          have := sendEntry_sends (A := fun _ => True) c base { s with buf := rest } (by simp)
          rwa [hs] at this
        refine ih ?_ h
        rw [hsend.buf]
        have : s.buf.length = rest.length + 1 := by rw [hb]; rfl
        show rest.length ≤ n
        omega

theorem sendPerCall_records (c : Color) (chips : List Chip) (base : Nat) (s : State) :
    (sendPerCall c chips base s).Records := by
  induction chips generalizing base s with
  | nil => exact Flow.records_ok _ _
  | cons x rest ih => exact (setLed_records _ _ _ _).bind fun r t => ih _ t

theorem sendPerEntry_records (c : Color) (base : Nat) (chips : List Chip) (next : Nat) (s : State) :
    (sendPerEntry c base chips next s).Records := by
  induction chips generalizing next s with
  | nil => exact Flow.records_ok _ _
  | cons x rest ih => exact (setLed_records _ _ _ _).bind fun r t => ih _ t

theorem sendEntry_records (c : Color) (base : Nat) (s : State) : (sendEntry c base s).Records := by
  unfold sendEntry
  split
  · exact sendPerCall_records _ _ _ _
  · exact sendPerEntry_records _ _ _ _ _

theorem blitBuffer_records (s : State) : (blitBuffer s).Records := by
  unfold blitBuffer
  generalize s.buf.length = n
  generalize s.launch.params.firstBase.toNat = base
  induction n generalizing base s with
  | zero => exact Flow.records_ok _ _
  | succ n ih =>
    unfold drain
    split
    · exact Flow.records_ok _ _
    · exact (sendEntry_records _ _ _).bind fun b t => ih t b

theorem blankAll_records (s : State) : (blankAll s).Records :=
  Flow.Records.each (fun _ t => Flow.Records.each (fun _ u => emitTxn_records _ u) _ t) _ _

theorem blitBuffer_empties {s t : State} (h : blitBuffer s = .ok () t) : t.buf = [] :=
  drain_empties (Nat.le_refl _) h

theorem flatFrame_empties {c : Color} {s t : State} (h : flatFrame c s = .ok () t) : t.buf = [] :=
  blitBuffer_empties (s := fill c s) h

/-- BEGIN, not stopped, ends with an empty buffer. -/
theorem renderBegin_empties {c : Color} {s t : State} (h : renderBegin c s = .ok () t) : t.buf = [] := by
  unfold renderBegin at h
  split at h
  · cases hf : flatFrame c s with
    | raised u => rw [hf] at h; cases h
    | ok a u =>
      rw [hf, Flow.bind_ok] at h
      have sent := blankAll_sends (A := fun _ => True) u (by simp)
      rw [h] at sent
      have sent : Sends _ u t := sent
      rw [sent.buf]
      exact flatFrame_empties hf
  · cases hb : blankAll s with
    | raised u => rw [hb] at h; cases h
    | ok a u =>
      rw [hb, Flow.bind_ok] at h
      exact flatFrame_empties h

theorem flatFrame_records (c : Color) (s : State) : (flatFrame c s).Records := blitBuffer_records (fill c s)

theorem renderBegin_records (c : Color) (s : State) : (renderBegin c s).Records := by
  unfold renderBegin
  split
  · exact (flatFrame_records c s).bind fun _ t => blankAll_records t
  · exact (blankAll_records s).bind fun _ t => flatFrame_records c t

end Sys2Proof.Machine
end

