-- ==== Sys2Proof/Laws/Animation.lean ====
section
/-! SUPPORT. STEP once: what each style does to the animation fields, and what a STEP leaves unchanged (43_animation.md R206
to R213). -/

namespace Sys2Proof.Machine

theorem NonEmpty.toList_length {α : Type} (l : NonEmpty α) : l.toList.length = l.size := rfl

theorem NonEmpty.size_pos {α : Type} (l : NonEmpty α) : 0 < l.size := Nat.succ_pos _

/-- A frame replaces the buffer and nothing else. -/
theorem pushFrame_buf (f : Group → Color) (s : State) : ∃ b, pushFrame f s = { s with buf := b } :=
  ⟨_, pushFrame_eq f s⟩

/-- An index inside the palette reads a color. -/
theorem colorAt_ok {p : Palette} {i : Nat} (h : i < p.colors.size) (s : State) :
    ∃ c, p.colors.toList[i]? = some c ∧ colorAt p i s = .ok c s := by
  have hc := List.getElem?_eq_getElem (l := p.colors.toList) (i := i) (by rwa [NonEmpty.toList_length])
  exact ⟨_, hc, by unfold colorAt; rw [hc]⟩

/-- An index outside the palette is the model's own fault (log 11). -/
theorem colorAt_hole {p : Palette} {i : Nat} (h : p.colors.size ≤ i) (s : State) :
    colorAt p i s = raise (.romHole i) s := by
  unfold colorAt
  rw [List.getElem?_eq_none (by rwa [NonEmpty.toList_length])]

/-- The target of a crossfade is always read. -/
theorem crossfadeTarget_ok (p : Palette) (a : Anim) (s : State) : ∃ c, crossfadeTarget p a s = .ok c s := by
  unfold crossfadeTarget
  split
  · obtain ⟨c, -, h⟩ := colorAt_ok (p := p) (Nat.mod_lt (a.currentColor + 1) (NonEmpty.size_pos _)) s
    exact ⟨c, h⟩
  · exact ⟨_, rfl⟩

/-- The fields after a new sparkle cycle (R210). -/
def Anim.cycled (p : Palette) (d : Draw) (a : Anim) : Anim :=
  if p.desc.fade then a.newCycle d else (a.newCycle d).advance p.colors.size

/-- Everything the style's branch of STEP can do (R206): advance and fill, a crossfade tick, a new cycle, a diagnostic; or,
only from a color index outside the palette, the model's own fault. -/
theorem stepStyle_cases (p : Palette) (a : Anim) (s : State) :
    ((p.desc.style = .fade ∨ p.desc.style = .sweep) ∧
      ∃ f, stepStyle p a s = .ok () (pushFrame f { s with anim := some (a.advance p.colors.size) })) ∨
    (p.desc.style = .sparkle ∧ a.lerping = true ∧ p.desc.fade = true ∧
      ∃ f, stepStyle p a s =
        .ok () (pushFrame f { s with anim := some (a.progress.settle p.colors.size) })) ∨
    (p.desc.style = .sparkle ∧ (a.lerping = false ∨ p.desc.fade = false) ∧
      ∃ f, stepStyle p a s =
        .ok () (pushFrame f { (draw s).2 with anim := some (a.cycled p (draw s).1) })) ∨
    (∃ tag, p.desc.style = .unknown tag ∧ stepStyle p a s = .ok () (emitDiag tag s)) ∨
    (p.colors.size ≤ a.currentColor ∧ ∃ i,
      stepStyle p a s = raise (.romHole i) s ∨ stepStyle p a s = raise (.romHole i) (draw s).2) := by
  have flat : ∃ f, stepFlat p a s =
      .ok () (pushFrame f { s with anim := some (a.advance p.colors.size) }) := by
    obtain ⟨c, -, hc⟩ := colorAt_ok (p := p) (Nat.mod_lt (a.currentColor + 1) (NonEmpty.size_pos _)) s
    refine ⟨fun _ => c, ?_⟩
    unfold stepFlat
    dsimp only
    rw [show (a.advance p.colors.size).currentColor = (a.currentColor + 1) % p.colors.size from rfl, hc]
    rfl
  unfold stepStyle
  cases hs : p.desc.style with
  | fade => exact .inl ⟨.inl rfl, flat⟩
  | sweep => exact .inl ⟨.inr rfl, flat⟩
  | unknown tag => exact .inr (.inr (.inr (.inl ⟨tag, rfl, rfl⟩)))
  | sparkle =>
    simp only
    by_cases hl : a.lerping = true ∧ p.desc.fade = true
    · rw [if_pos (by simp [hl])]
      obtain ⟨target, ht⟩ := crossfadeTarget_ok p a.progress s
      rcases Nat.lt_or_ge a.currentColor p.colors.size with h | h
      · refine .inr (.inl ⟨trivial, hl.1, hl.2, ?_⟩)
        obtain ⟨c, -, hc⟩ := colorAt_ok (p := p) h s
        refine ⟨fun g => if g ∈ a.progress.active then
          pack (blend s.launch.params.lerpRound c target a.progress.lastLerp) else black, ?_⟩
        unfold stepCrossfade
        dsimp only
        rw [ht, Flow.bind_ok, show a.progress.currentColor = a.currentColor from rfl, hc]
        rfl
      · refine .inr (.inr (.inr (.inr ⟨h, a.currentColor, .inl ?_⟩)))
        unfold stepCrossfade
        dsimp only
        rw [ht, Flow.bind_ok, show a.progress.currentColor = a.currentColor from rfl, colorAt_hole h]
        rfl
    · rw [if_neg (by simpa using hl)]
      have off : a.lerping = false ∨ p.desc.fade = false := by
        cases h1 : a.lerping <;> cases h2 : p.desc.fade <;> simp_all
      rcases Nat.lt_or_ge (a.cycled p (draw s).1).currentColor p.colors.size with h | h
      · refine .inr (.inr (.inl ⟨trivial, off, ?_⟩))
        obtain ⟨c, -, hc⟩ := colorAt_ok (p := p) h (draw s).2
        refine ⟨fun g => if g ∈ (a.cycled p (draw s).1).active then c else black, ?_⟩
        unfold stepNewSparkle
        dsimp only
        rw [← Anim.cycled, hc]
        rfl
      · refine .inr (.inr (.inr (.inr ⟨?_, (a.cycled p (draw s).1).currentColor, .inr ?_⟩)))
        · unfold Anim.cycled at h
          split at h
          · exact h
          · exact absurd (Nat.mod_lt (a.currentColor + 1) (NonEmpty.size_pos p.colors)) (Nat.not_lt.mpr h)
        · unfold stepNewSparkle
          dsimp only
          rw [← Anim.cycled, colorAt_hole h]
          rfl

/-- The oracle's next draw (R214). -/
theorem draw_next (s : State) : (draw s).1 = s.nextDraw := by
  unfold draw State.nextDraw
  cases s.draws <;> rfl

end Sys2Proof.Machine
end

