-- ==== Sys2Proof/Laws/BusFault.lean ====
section
/-! SUPPORT. A failing transaction cuts an operation off there (60_exceptions.md R253): said once of sequences and of every
operation that sends, by comparing the run with one on a bus that answers `ok` throughout. -/

namespace Sys2Proof.Machine

/-- `s` with other answers to come. -/
def State.answering (l : List BusAnswer) (s : State) : State := { s with answers := l }

/-- The same end with other answers to come. -/
def Flow.answering {α : Type} (l : List BusAnswer) : Flow α → Flow α
  | .ok a s => .ok a (s.answering l)
  | .raised s => .raised (s.answering l)

@[simp] theorem txnCount_nil : txnCount [] = 0 := rfl

@[simp] theorem txnCount_append (xs ys : List Event) : txnCount (xs ++ ys) = txnCount xs + txnCount ys :=
  List.countP_append

@[simp] theorem txnCount_txn (t : Txn) (es : List Event) : txnCount (.txn t :: es) = txnCount es + 1 :=
  List.countP_cons_of_pos rfl

@[simp] theorem txnCount_delay (ms : Nat) (es : List Event) : txnCount (.delay ms :: es) = txnCount es :=
  List.countP_cons_of_neg (by simp)

@[simp] theorem txnCount_diag (tag : String) (es : List Event) : txnCount (.diag tag :: es) = txnCount es :=
  List.countP_cons_of_neg (by simp)

@[simp] theorem txnCount_pin (p : Pin) (b : Level) (es : List Event) :
    txnCount (.pin p b :: es) = txnCount es := List.countP_cons_of_neg (by simp)

/-- What the answers do to the operation `f` started in `s`. With none to come (a bus that answers `ok`) it appends the events
`es` and changes at most trace, fault and buffer besides; with `ok` for each of its transactions it does the same and uses
them up; with the first `fail` for the transaction `x`, the events up to `x` stand, `BusFault` of `x` is raised, and at most
the buffer changed besides. -/
def CutsAt {α : Type} (f : State → Flow α) (s : State) : Prop :=
  s.answers = [] → ∃ es,
    (∃ b e, (f s).state = { s with trace := s.trace ++ es, fault := e, buf := b }) ∧
    (∀ l : List BusAnswer, (∀ a ∈ l.take (txnCount es), a = .ok) →
      f (s.answering l) = (f s).answering (l.drop (txnCount es))) ∧
    ∀ (before after : List Event) (x : Txn) (rest : List BusAnswer), es = before ++ .txn x :: after →
      ∃ b, f (s.answering (List.replicate (txnCount before) .ok ++ .fail :: rest)) =
        .raised
          { s with
            trace := s.trace ++ before ++ [.txn x]
            answers := rest
            fault := some (.busFault x)
            buf := b }

/-- An operation that emits no transaction and reads no answer. -/
theorem CutsAt.silent {α : Type} {f : State → Flow α} {s : State} (es : List Event)
    (hc : ∀ t, Event.txn t ∉ es)
    (hs : ∃ b e, (f s).state = { s with trace := s.trace ++ es, fault := e, buf := b })
    (ha : ∀ l, f (s.answering l) = (f s).answering l) : CutsAt f s := by
  intro _
  have zero : txnCount es = 0 := by
    refine List.countP_eq_zero.mpr fun e he => ?_
    cases e with
    | txn t => exact absurd he (hc t)
    | _ => simp
  refine ⟨es, hs, fun l _ => by rw [zero]; exact ha l, fun before after x rest h => ?_⟩
  exact absurd (by rw [h]; simp) (hc x)

theorem CutsAt.ok {α : Type} (a : α) (s : State) : CutsAt (Flow.ok a) s :=
  .silent [] (by simp) ⟨s.buf, s.fault, by simp⟩ fun _ => rfl

theorem CutsAt.raise {α : Type} (e : Fault) (s : State) : CutsAt (raise (α := α) e) s :=
  .silent [] (by simp) ⟨s.buf, some e, by simp⟩ fun _ => rfl

theorem CutsAt.emitTxn (t : Txn) (s : State) : CutsAt (emitTxn t) s := by
  intro h
  have sent : Machine.emitTxn t s = .ok () { s with trace := s.trace ++ [.txn t] } := by
    rw [emitTxn_ok t (by simp [State.BusOk, h])]
    simp [State.sent, h]
  refine ⟨[.txn t], ⟨s.buf, s.fault, by rw [sent]; rfl⟩, fun l hl => ?_, fun before after x rest he => ?_⟩
  · rw [emitTxn_ok t (by simpa [State.BusOk, State.answering] using hl), sent]
    rfl
  · obtain ⟨rfl, ht⟩ : before = [] ∧ Event.txn t = .txn x := by
      cases before with
      | nil => exact ⟨rfl, (List.cons.inj he).1⟩
      | cons b before => simp at he
    cases ht
    exact ⟨s.buf, by rw [txnCount_nil, List.replicate_zero, List.nil_append, emitTxn_fail t rfl]; simp [State.answering]⟩

/-- An operation that agrees with one that cuts, whatever the answers. -/
theorem CutsAt.congr {α : Type} {f g : State → Flow α} {s : State} (hf : CutsAt f s)
    (h : ∀ l, g (s.answering l) = f (s.answering l)) : CutsAt g s := by
  intro ha
  have h0 : g s = f s := by
    have := h []
    rwa [State.answering, ← ha] at this
  obtain ⟨es, hk⟩ := hf ha
  exact ⟨es, by simpa only [h0, h] using hk⟩

/-- An operation that first replaces the buffer. -/
theorem CutsAt.withBuf {α : Type} {f : State → Flow α} {s : State} (b : List Color)
    (h : CutsAt f { s with buf := b }) : CutsAt (fun s => f { s with buf := b }) s := h

/-- One operation after another. -/
theorem CutsAt.bind {α β : Type} {f : State → Flow α} {g : α → State → Flow β} {s : State} (hf : CutsAt f s)
    (hg : ∀ a t, t.launch = s.launch → t.cfg = s.cfg → f s = .ok a t → CutsAt (g a) t) :
    CutsAt (fun s => (f s).bind g) s := by
  intro hs
  obtain ⟨es, ⟨b, e, h1⟩, hok, hfail⟩ := hf hs
  cases hx : f s with
  | raised t =>
    rw [hx] at h1 hok
    refine ⟨es, ⟨b, e, ?_⟩, fun l hl => ?_, fun before after x rest he => ?_⟩
    · simpa [hx] using h1
    · simp only [hok l hl, hx]
      rfl
    · obtain ⟨c, hc⟩ := hfail before after x rest he
      exact ⟨c, by simp only [hc]; rfl⟩
  | ok a t =>
    rw [hx] at h1 hok
    obtain rfl : t = _ := h1
    obtain ⟨fs, ⟨c, d, h2⟩, gok, gfail⟩ := hg a _ (by simp) (by simp) hx (by simpa using hs)
    refine ⟨es ++ fs, ⟨c, d, ?_⟩, fun l hl => ?_, fun before after x rest he => ?_⟩
    · simp only [hx, Flow.bind_ok, h2, List.append_assoc]
    · rw [txnCount_append, List.take_add] at hl
      have first := hok l fun y hy => hl y (List.mem_append_left _ hy)
      have second := gok (l.drop (txnCount es)) fun y hy => hl y (List.mem_append_right _ hy)
      simp only [first, hx, Flow.answering, Flow.bind_ok]
      rw [second, txnCount_append, List.drop_drop]
      rfl
    · rcases List.append_eq_append_iff.mp he with ⟨mid, hb, hfs⟩ | ⟨mid, hes, hafter⟩
      · -- the failing transaction is one of the second operation's
        obtain ⟨v, hv⟩ := gfail mid after x rest hfs
        refine ⟨v, ?_⟩
        have first := hok (List.replicate (txnCount before) .ok ++ .fail :: rest) (by
          intro y hy
          rw [hb, txnCount_append, List.replicate_add, List.append_assoc,
            List.take_append_of_le_length (by simp)] at hy
          exact List.eq_of_mem_replicate (List.mem_of_mem_take hy))
        have drop : (List.replicate (txnCount before) BusAnswer.ok ++ .fail :: rest).drop (txnCount es) =
            List.replicate (txnCount mid) .ok ++ .fail :: rest := by
          rw [hb, txnCount_append, List.replicate_add, List.append_assoc, List.drop_append_of_le_length (by simp),
            List.drop_of_length_le (by simp), List.nil_append]
        rw [drop] at first
        simp only [first, Flow.answering, Flow.bind_ok]
        exact hv.trans (by simp only [hb, List.append_assoc])
      · cases mid with
        | nil =>
          obtain ⟨v, hv⟩ := gfail [] after x rest (by simpa using hafter.symm)
          refine ⟨v, ?_⟩
          have hb : es = before := by simpa using hes
          have first := hok (List.replicate (txnCount before) .ok ++ .fail :: rest) (by
            intro y hy
            rw [hb, List.take_append_of_le_length (by simp)] at hy
            exact List.eq_of_mem_replicate (List.mem_of_mem_take hy))
          rw [hb, List.drop_append_of_le_length (by simp), List.drop_of_length_le (by simp)] at first
          simp only [first, Flow.answering, Flow.bind_ok]
          subst hb
          simpa using hv
        | cons m mid =>
          -- it is one of the first operation's
          rw [List.cons_append] at hafter
          obtain ⟨rfl, -⟩ := List.cons.inj hafter
          obtain ⟨v, hv⟩ := hfail before mid x rest hes
          exact ⟨v, by simp only [hv]; rfl⟩

/-- One operation per element. -/
theorem CutsAt.each {α : Type} {f : α → State → Flow Unit} (hf : ∀ a s, CutsAt (f a) s) (l : List α) (s : State) :
    CutsAt (Flow.each f l) s := by
  induction l generalizing s with
  | nil => exact .ok () s
  | cons a l ih => exact (hf a s).bind fun _ t _ _ _ => ih t

/-! ### The operations that send -/

theorem emitGroup_cuts (chip : BusAddr) (g : TxnGroup) (s : State) : CutsAt (emitGroup chip g) s :=
  .each (fun _ => .emitTxn _) _ s

theorem readPixelOrder_cuts (s : State) : CutsAt readPixelOrder s := by
  cases h : pixelOrder s.cfg.pixelOrder with
  | some o =>
    refine .silent [] (by simp) ⟨s.buf, s.fault, by rw [readPixelOrder_legal h]; simp⟩ fun l => ?_
    rw [readPixelOrder_legal h, readPixelOrder_legal (s := s.answering l) h]
    rfl
  | none =>
    refine .silent [] (by simp) ⟨s.buf, some (.pixelOrder s.cfg.pixelOrder), by rw [readPixelOrder_illegal h]; simp⟩
      fun l => ?_
    rw [readPixelOrder_illegal h, readPixelOrder_illegal (s := s.answering l) h]
    rfl

theorem setLed_cuts (chip : BusAddr) (base : Nat) (color : Color) (s : State) :
    CutsAt (setLed chip base color) s := by
  refine (readPixelOrder_cuts s).bind fun o t hl _ _ => ?_
  by_cases h : base > 250
  · simp only [if_pos h]
    exact .raise _ t
  · simp only [if_neg h]
    have send : CutsAt (fun u =>
        Flow.each (fun jx : Nat × Component => emitTxn (slotTxn u.launch.gamma chip base color jx.1 jx.2))
          (slotOrder u.launch.params.slotLayout o) u) t :=
      CutsAt.each (f := fun jx : Nat × Component => emitTxn (slotTxn t.launch.gamma chip base color jx.1 jx.2))
        (fun _ => .emitTxn _) (slotOrder t.launch.params.slotLayout o) t
    refine send.bind fun _ u _ _ _ => ?_
    exact .silent [] (by simp) ⟨u.buf, u.fault, by simp⟩ fun _ => rfl

theorem readChip_cuts (index : BitVec 4) (s : State) : CutsAt (readChip index) s := by
  have other : ∀ l, readChip index (s.answering l) = (readChip index s).answering l := by
    intro l
    rw [readChip, show (s.answering l).activeChips = s.activeChips from rfl, readChip]
    split <;> rfl
  rcases readChip_cases index s with ⟨c, -, -, h⟩ | ⟨-, h⟩
  · exact .silent [] (by simp) ⟨s.buf, s.fault, by rw [h]; simp⟩ other
  · exact .silent [] (by simp) ⟨s.buf, some (.noChip index), by rw [h]; simp⟩ other

theorem initChip_cuts (c : Chip) (s : State) : CutsAt (initChip c) s :=
  (emitGroup_cuts _ _ s).bind fun _ t _ _ _ =>
  (emitGroup_cuts _ _ t).bind fun _ u _ _ _ =>
  (emitGroup_cuts _ _ u).bind fun _ v _ _ _ =>
  CutsAt.bind (f := fun w => emitGroup c.addr (ceilingOf c w.cfg.overdriveOn) w)
    (emitGroup_cuts c.addr (ceilingOf c v.cfg.overdriveOn) v) fun _ w _ _ _ => emitGroup_cuts _ _ w

theorem selfTestChip_cuts (c : Chip) (s : State) : CutsAt (selfTestChip c) s := by
  refine (CutsAt.each (fun w t => ?_) _ s).bind fun _ t _ _ _ => emitGroup_cuts _ _ t
  refine (emitGroup_cuts _ _ t).bind fun _ u _ _ _ => ?_
  exact .silent [.delay u.launch.params.selfTestDelayMs] (by simp) ⟨u.buf, u.fault, rfl⟩ fun _ => rfl

theorem sendPerCall_cuts (c : Color) (chips : List Chip) (base : Nat) (s : State) :
    CutsAt (sendPerCall c chips base) s := by
  induction chips generalizing base s with
  | nil => exact .ok base s
  | cons x rest ih => exact (setLed_cuts _ _ _ s).bind fun _ t _ _ _ => ih _ t

theorem sendPerEntry_cuts (c : Color) (base : Nat) (chips : List Chip) (next : Nat) (s : State) :
    CutsAt (sendPerEntry c base chips next) s := by
  induction chips generalizing next s with
  | nil => exact .ok next s
  | cons x rest ih => exact (setLed_cuts _ _ _ s).bind fun _ t _ _ _ => ih _ t

theorem sendEntry_cuts (c : Color) (base : Nat) (s : State) : CutsAt (sendEntry c base) s := by
  cases h : s.launch.params.blitThreading with
  | perCall =>
    refine (sendPerCall_cuts c s.activeChips base s).congr fun l => ?_
    rw [sendEntry, show (s.answering l).launch.params.blitThreading = .perCall from h]
    rfl
  | perEntry =>
    refine (sendPerEntry_cuts c base s.activeChips base s).congr fun l => ?_
    rw [sendEntry, show (s.answering l).launch.params.blitThreading = .perEntry from h]
    rfl

theorem drain_cuts (n base : Nat) (s : State) : CutsAt (drain n base) s := by
  induction n generalizing base s with
  | zero => exact .ok () s
  | succ n ih =>
    cases hb : s.buf with
    | nil =>
      refine (CutsAt.ok () s).congr fun l => ?_
      rw [drain, bufPop, show (s.answering l).buf = [] from hb]
    | cons c cs =>
      have rest : CutsAt (fun t => (sendEntry c base t).bind fun base t => drain n base t) { s with buf := cs } :=
        (sendEntry_cuts c base _).bind fun _ t _ _ _ => ih _ t
      refine rest.withBuf.congr fun l => ?_
      rw [drain, bufPop, show (s.answering l).buf = c :: cs from hb]

theorem blitBuffer_cuts (s : State) : CutsAt blitBuffer s := drain_cuts s.buf.length s.launch.params.firstBase.toNat s

theorem flatFrame_cuts (c : Color) (s : State) : CutsAt (flatFrame c) s := by
  refine (blitBuffer_cuts { s with buf := (fill c s).buf }).withBuf.congr fun l => ?_
  rw [flatFrame, fill, pushFrame_eq, fill, pushFrame_eq]
  rfl

theorem blankAll_cuts (s : State) : CutsAt blankAll s :=
  CutsAt.each (f := blankChip) (fun _ t => emitGroup_cuts _ _ t) s.activeChips s

theorem renderBegin_cuts (c : Color) (s : State) : CutsAt (renderBegin c) s := by
  cases h : s.launch.params.beginOrder with
  | renderThenBlank =>
    refine ((flatFrame_cuts c s).bind fun _ t _ _ _ => blankAll_cuts t).congr fun l => ?_
    rw [renderBegin, show (s.answering l).launch.params.beginOrder = .renderThenBlank from h]
  | blankThenRender =>
    refine ((blankAll_cuts s).bind fun _ t _ _ _ => flatFrame_cuts c t).congr fun l => ?_
    rw [renderBegin, show (s.answering l).launch.params.beginOrder = .blankThenRender from h]

/-! ### A style's branch of STEP reads no answer -/

theorem Flow.answering_bind {α β : Type} (x : Flow α) {f g : α → State → Flow β} (l : List BusAnswer)
    (h : ∀ a s, f a (s.answering l) = (g a s).answering l) : (x.answering l).bind f = (x.bind g).answering l := by
  cases x with
  | ok a s => exact h a s
  | raised s => rfl

theorem draw_answering (s : State) (l : List BusAnswer) :
    draw (s.answering l) = ((draw s).1, (draw s).2.answering l) := by
  unfold draw State.answering
  cases s.draws <;> rfl

theorem colorAt_answering (p : Palette) (i : Nat) (s : State) (l : List BusAnswer) :
    colorAt p i (s.answering l) = (colorAt p i s).answering l := by
  unfold colorAt
  split <;> rfl

theorem crossfadeTarget_answering (p : Palette) (a : Anim) (s : State) (l : List BusAnswer) :
    crossfadeTarget p a (s.answering l) = (crossfadeTarget p a s).answering l := by
  unfold crossfadeTarget
  split
  · exact colorAt_answering _ _ _ _
  · rfl

theorem pushFrame_answering (f : Group → Color) (s : State) (l : List BusAnswer) :
    pushFrame f (s.answering l) = (pushFrame f s).answering l := by
  rw [pushFrame_eq, pushFrame_eq]
  rfl

theorem stepStyle_answering (p : Palette) (a : Anim) (s : State) (l : List BusAnswer) :
    stepStyle p a (s.answering l) = (stepStyle p a s).answering l := by
  have flat : stepFlat p a (s.answering l) = (stepFlat p a s).answering l := by
    unfold stepFlat
    dsimp only
    rw [colorAt_answering]
    exact Flow.answering_bind _ l fun c t => congrArg (Flow.ok ())
      (pushFrame_answering (fun _ => c) { t with anim := some (a.advance p.colors.size) } l)
  unfold stepStyle
  split
  · exact flat
  · exact flat
  · split
    · unfold stepCrossfade
      dsimp only
      rw [crossfadeTarget_answering]
      refine Flow.answering_bind _ l fun target t => ?_
      rw [colorAt_answering]
      refine Flow.answering_bind _ l fun c u => ?_
      exact congrArg (Flow.ok ())
        (pushFrame_answering
          (fun g => if g ∈ a.progress.active then
            pack (blend u.launch.params.lerpRound c target a.progress.lastLerp) else black)
          { u with anim := some (a.progress.settle p.colors.size) } l)
    · unfold stepNewSparkle
      dsimp only
      rw [draw_answering, ← Anim.cycled, colorAt_answering]
      refine Flow.answering_bind _ l fun c t => ?_
      exact congrArg (Flow.ok ())
        (pushFrame_answering (fun g => if g ∈ (a.cycled p (draw s).1).active then c else black)
          { t with anim := some (a.cycled p (draw s).1) } l)
  · rfl

end Sys2Proof.Machine
end

