-- ==== Sys2Proof/Laws/Display.lean ====
section
/-! SUPPORT. One character write, once: what it does at a legal position, and what it never touches (40_display.md R124,
R125, R129). -/

namespace Sys2Proof.Machine

/-- At a legal position the write always completes. -/
theorem printAt_ok {s : State} {pos : BitVec 3} {l : AddrLines}
    (h : s.launch.params.addrMap[pos.toNat]? = some l) (d : Disp) (c : Byte) :
    printAt d c pos s = .ok () (drivePins (printPins d l c) s) := by
  simp [printAt, readPosition, h]

/-- Positions 0 to 4 are legal. -/
theorem legalPosition (s : State) {pos : BitVec 3} (h : pos.toNat ≤ 4) :
    ∃ l, s.launch.params.addrMap[pos.toNat]? = some l :=
  ⟨_, by rw [Vector.getElem?_eq_getElem (show pos.toNat < 5 by omega)]⟩

/-- Positions 5 to 7 raise `IllegalPosition` before any event. -/
theorem printAt_illegal (s : State) {pos : BitVec 3} (h : 4 < pos.toNat) (d : Disp) (c : Byte) :
    printAt d c pos s = raise (.illegalPosition pos) s := by
  have none : s.launch.params.addrMap[pos.toNat]? = none := Vector.getElem?_eq_none (by show 5 ≤ _; omega)
  simp [printAt, readPosition, none]

/-- From `s` to `t` only pins were driven, or a fault other than the model's own was raised. -/
structure Draws (s t : State) : Prop where
  eq : t = { s with pins := t.pins, trace := t.trace, fault := t.fault }
  fault : t.fault = s.fault ∨ ∃ f, t.fault = some f ∧ ∀ i, f ≠ .romHole i
  trace : ∃ es, t.trace = s.trace ++ es ∧ ∀ e ∈ es, ∃ p b, e = .pin p b

theorem Draws.refl (s : State) : Draws s s := ⟨rfl, .inl rfl, [], by simp⟩

theorem Draws.trans {s t u : State} (h : Draws s t) (k : Draws t u) : Draws s u := by
  refine ⟨by rw [k.eq, h.eq], ?_, ?_⟩
  · rcases k.fault with a | a
    · rw [a]; exact h.fault
    · exact .inr a
  · obtain ⟨es, he, ha⟩ := h.trace
    obtain ⟨fs, hf, hb⟩ := k.trace
    exact ⟨es ++ fs, by rw [hf, he, List.append_assoc],
      fun e hin => (List.mem_append.mp hin).elim (ha e) (hb e)⟩

theorem printAt_draws (d : Disp) (c : Byte) (pos : BitVec 3) (s : State) :
    (printAt d c pos s).Within (Draws s) := by
  by_cases h : pos.toNat ≤ 4
  · obtain ⟨l, hl⟩ := legalPosition s h
    rw [printAt_ok hl, drivePins_eq]
    refine ⟨rfl, .inl rfl, _, rfl, fun e he => ?_⟩
    obtain ⟨pb, -, rfl⟩ := List.mem_map.mp he
    exact ⟨_, _, rfl⟩
  · rw [printAt_illegal s (by omega)]
    exact ⟨rfl, .inr ⟨_, rfl, by intro i h; cases h⟩, [], by simp⟩

theorem clear_draws (d : Disp) (s : State) :
    (Flow.each (printAt d 0x20) clearPositions s).Within (Draws s) :=
  Flow.Within.each (Draws.refl s) fun p _ t ht => ht.trans (printAt_draws d 0x20 p t)

end Sys2Proof.Machine
end

