-- ==== Sys2Proof/Laws/FrameFaults.lean ====
section
/-! SUPPORT. A frame stopped inside Blit: by an illegal pixel order (41_led_driver.md R154), and by the base that passes
register 250 (R158, 70_reset_and_hazards.md R303). -/

namespace Sys2Proof.Machine

/-! ### An illegal pixel order -/

/-- With an entry and an active chip, the first group raises `PixelOrder`, its entry popped (R154, R215). -/
theorem blitBuffer_illegal {s : State} {c : Color} {cs : List Color} (hb : s.buf = c :: cs)
    (hc : s.activeChips ≠ []) (ho : pixelOrder s.cfg.pixelOrder = none) :
    blitBuffer s = raise (.pixelOrder s.cfg.pixelOrder) { s with buf := cs } := by
  obtain ⟨x, xs, hx⟩ := List.exists_cons_of_ne_nil hc
  have act : State.activeChips { s with buf := cs } = x :: xs := hx
  have stop := setLed_illegal (s := { s with buf := cs }) ho
  simp only [blitBuffer, hb, List.length_cons, drain, bufPop, sendEntry, act]
  cases s.launch.params.blitThreading <;> simp [sendPerCall, sendPerEntry, stop]

theorem flatFrame_illegal {s : State} (c : Color) (hb : s.buf = []) (hc : s.activeChips ≠ [])
    (ho : pixelOrder s.cfg.pixelOrder = none) :
    flatFrame c s = raise (.pixelOrder s.cfg.pixelOrder) { s with buf := List.replicate 5 c } := by
  rw [flatFrame, fill_empty _ hb]
  exact blitBuffer_illegal (s := { s with buf := List.replicate 6 c }) (cs := List.replicate 5 c) rfl hc ho

/-! ### The base that passes register 250, at stride 8 from base 1 -/

theorem setLed_range {s : State} {o : PixelOrder} (h : pixelOrder s.cfg.pixelOrder = some o) (chip : BusAddr)
    {base : Nat} (hb : 250 < base) (color : Color) :
    setLed chip base color s = raise (.registerRange base) s := by
  rw [setLed_eq h, if_pos hb]

/-- A bus that never fails answers any number of transactions. -/
theorem State.BusOk.all {s : State} (h : ∀ a ∈ s.answers, a = .ok) (n : Nat) : s.BusOk n :=
  fun a ha => h a (List.mem_of_mem_take ha)

theorem State.sent_answers_ok {s : State} (h : ∀ a ∈ s.answers, a = .ok) (ts : List Txn) :
    ∀ a ∈ (s.sent ts).answers, a = .ok := fun a ha => h a (List.mem_of_mem_drop ha)

theorem take_length_add {α : Type} {xs ys : List α} {n m : Nat} (h : xs.length = n) :
    (xs ++ ys).take (n + m) = xs ++ ys.take m := by
  subst h
  simp [List.take_append]

theorem groupStride_slot {p : OpenParams} {o : PixelOrder} (h : p.slotLayout = .slot) : groupStride p o = 8 := by
  unfold groupStride
  rw [h]
  rfl

/-- From the `m`-th call on, the calls below the 32nd go out, and the 32nd, at base 257, raises `RegisterRange`. -/
theorem sendPerCall_crosses {s : State} {o : PixelOrder} (ho : pixelOrder s.cfg.pixelOrder = some o)
    (hs : groupStride s.launch.params o = 8) (ha : ∀ a ∈ s.answers, a = .ok) (c : Color) (chips : List Chip)
    (m : Nat) (hm : m ≤ 32) (hc : 32 < m + chips.length) :
    sendPerCall c chips (1 + 8 * m) s =
      .raised
        { s.sent ((entryTxns s.launch.params s.launch.gamma o c (1 + 8 * m) 8 chips).take (3 * (32 - m))) with
          fault := some (.registerRange 257) } := by
  induction chips generalizing m s with
  | nil =>
    rw [List.length_nil] at hc
    omega
  | cons x xs ih =>
    rw [sendPerCall]
    by_cases h : m = 32
    · subst h
      rw [setLed_range ho _ (by omega)]
      simp [raise]
    · rw [setLed_ok ho _ (by omega) _ (.all ha 3), Flow.bind_ok, lastSlot_stride, hs,
        show 1 + 8 * m + 8 = 1 + 8 * (m + 1) by omega,
        ih (by exact ho) (by exact hs) (State.sent_answers_ok ha _) (m + 1) (by omega)
          (by rw [List.length_cons] at hc; omega),
        entryTxns_cons, show 3 * (32 - m) = 3 + 3 * (32 - (m + 1)) by omega,
        take_length_add (groupTxns_length _ _ _ _ _ _), show 1 + 8 * m + 8 = 1 + 8 * (m + 1) by omega,
        ← State.sent_sent]
      rfl

/-- The same of a drain of several entries (R303). -/
theorem drain_crosses {o : PixelOrder} (cs : List Color) {s : State} (hbuf : s.buf = cs)
    (ho : pixelOrder s.cfg.pixelOrder = some o) (hs : groupStride s.launch.params o = 8)
    (hp : s.launch.params.blitThreading = .perCall) (ha : ∀ a ∈ s.answers, a = .ok) (m : Nat) (hm : m ≤ 32)
    (hc : 32 < m + s.activeChips.length * cs.length) :
    ∃ b, drain cs.length (1 + 8 * m) s =
      .raised
        { s.sent ((drainTxns s.launch.params s.launch.gamma o s.activeChips (1 + 8 * m) cs).take (3 * (32 - m))) with
          fault := some (.registerRange 257)
          buf := b } := by
  induction cs generalizing m s with
  | nil =>
    rw [List.length_nil, Nat.mul_zero] at hc
    omega
  | cons c cs ih =>
    have cst : chipStride s.launch.params o = 8 := by
      unfold chipStride
      rw [hp]
      exact hs
    have est : entryStride s.launch.params o s.activeChips.length = 8 * s.activeChips.length := by
      unfold entryStride
      simp only [hp, hs]
    have act : State.activeChips { s with buf := cs } = s.activeChips := rfl
    have next : 1 + 8 * m + 8 * s.activeChips.length = 1 + 8 * (m + s.activeChips.length) := by omega
    rw [List.length_cons, drain, bufPop, hbuf]
    simp only
    by_cases h : 32 < m + s.activeChips.length
    · have send : sendEntry c (1 + 8 * m) { s with buf := cs } =
          sendPerCall c s.activeChips (1 + 8 * m) { s with buf := cs } := by
        simp only [sendEntry, hp, act]
      have stop := sendPerCall_crosses (s := { s with buf := cs }) ho hs ha c s.activeChips m hm h
      rw [send, stop, Flow.bind_raised, drainTxns,
        List.take_append_of_le_length (by rw [entryTxns_length]; omega), cst]
      exact ⟨cs, rfl⟩
    · have go := sendEntry_ok (s := { s with buf := cs }) (o := o) ho c (1 + 8 * m)
        (by
          intro j hj
          have hj : j < s.activeChips.length := hj
          rw [show chipStride _ o = 8 from cst]
          omega)
        (.all ha _)
      rw [go, Flow.bind_ok, act, show entryStride ({ s with buf := cs } : State).launch.params o _ = _ from est, next]
      obtain ⟨b, hb⟩ := ih
        (s := State.sent (entryTxns s.launch.params s.launch.gamma o c (1 + 8 * m)
          (chipStride s.launch.params o) s.activeChips) { s with buf := cs })
        rfl ho hs hp (State.sent_answers_ok (s := { s with buf := cs }) ha _) (m + s.activeChips.length) (by omega)
        (by
          show 32 < m + s.activeChips.length + s.activeChips.length * cs.length
          rw [List.length_cons, Nat.mul_add] at hc
          omega)
      refine ⟨b, ?_⟩
      rw [show drain cs.length (1 + 8 * (m + s.activeChips.length)) (State.sent _ _) = _ from hb, drainTxns,
        show 3 * (32 - m) = 3 * s.activeChips.length + 3 * (32 - (m + s.activeChips.length)) by omega,
        take_length_add (entryTxns_length _ _ _ _ _ _ _), est, next, ← State.sent_sent]
      rfl

end Sys2Proof.Machine
end

