-- ==== Sys2Proof/Laws/HostSide.lean ====
section
/-! SUPPORT. The host side: what one edge and one handler can do, and handlers served one after another
(60_exceptions.md R259, R264). -/

namespace Sys2Proof.Machine

@[simp] theorem Debouncer.fresh_accepts (cooldown t : Nat) :
    (Debouncer.fresh cooldown).edge t = (⟨cooldown, t + cooldown⟩, true) := by
  simp [Debouncer.fresh, Debouncer.edge]

/-- Everything an edge can do: discarded, with the button as it was, or accepted, with the window restarted (R264). -/
theorem Debouncer.edge_cases (d : Debouncer) (t : Nat) :
    (t < d.nextEligible ∧ d.edge t = (d, false)) ∨
      (d.nextEligible ≤ t ∧ d.edge t = ({ d with nextEligible := t + d.cooldown }, true)) := by
  unfold Debouncer.edge
  split
  · exact .inl ⟨by assumption, rfl⟩
  · exact .inr ⟨by omega, rfl⟩

@[simp] theorem Debouncer.ofLaunch_default (l : Launch) :
    Debouncer.ofLaunch l none = .fresh l.params.cooldownMs := rfl

@[simp] theorem Debouncer.ofLaunch_own (l : Launch) (n : Nat) : Debouncer.ofLaunch l (some n) = .fresh n := rfl

@[simp] theorem Buttons.ofLaunch_get (l : Launch) (b : Button) :
    (Buttons.ofLaunch l).get b = .ofLaunch l none := by
  cases b <;> rfl

@[simp] theorem Buttons.get_set (bs : Buttons) (b : Button) (d : Debouncer) : (bs.set b d).get b = d := by
  cases b <;> rfl

theorem Buttons.get_set_ne (bs : Buttons) {a b : Button} (h : a ≠ b) (d : Debouncer) :
    (bs.set b d).get a = bs.get a := by
  cases a <;> cases b <;> first | rfl | exact absurd rfl h

@[simp] theorem cfgAfter_append (c : Cfg) (xs ys : List HostAct) :
    cfgAfter c (xs ++ ys) = cfgAfter (cfgAfter c xs) ys := by
  induction xs generalizing c with
  | nil => rfl
  | cons x xs ih =>
    cases x with
    | command w => exact ih c
    | configure c' => exact ih c'

theorem nextIndex_lt {n : Nat} (h : 0 < n) (i : Nat) : nextIndex n i < n := Nat.mod_lt _ h

theorem prevIndex_lt {n : Nat} (h : 0 < n) (i : Nat) : prevIndex n i < n := Nat.mod_lt _ h

/-- An index a BEGIN can carry goes out whole. -/
theorem beginFlag_ok (l : Launch) {i : Nat} (h : i < 2 ^ 16) :
    beginFlag l i = some (issue (.animBegin (BitVec.ofNat 16 i))) := if_pos h

/-- With a pronoun pair in the list, every pronoun button has its acts (R270). -/
theorem selectPronouns_some {pairs : List PronounPair} {j : Nat} (h : j < pairs.length) (c : Cfg) :
    selectPronouns pairs j c =
      some (.configure { c with pronouns := some j } :: renderPair pairs[j]) := by
  simp [selectPronouns, List.getElem?_eq_getElem h]

/-- The configuration a handler leaves in the host is the one its acts leave in the block. -/
theorem handle_cfg {l : Launch} {pairs : List PronounPair} {h h' : HostMemory} {x : Trigger}
    {acts : List HostAct} (hx : handle l pairs h x = some (acts, h')) : h'.cfg = cfgAfter h.cfg acts := by
  cases x with
  | tick =>
    cases hx
    split <;> rfl
  | store c =>
    cases hx
    rfl
  | edge b t =>
    simp only [handle] at hx
    rcases (h.buttons.get b).edge_cases t with ⟨-, he⟩ | ⟨-, he⟩ <;> rw [he] at hx
    · cases hx
      rfl
    · obtain ⟨a, -, hp⟩ := Option.map_eq_some_iff.mp hx
      cases hp
      rfl

/-- Handlers are never interleaved: serving more triggers appends their acts after all the acts of those before, from what
those left in the host's memory (R259). -/
theorem serve_append (l : Launch) (pairs : List PronounPair) (h : HostMemory) (xs ys : List Trigger) :
    serve l pairs h (xs ++ ys) =
      (serve l pairs h xs).bind fun r => (serve l pairs r.2 ys).map fun q => (r.1 ++ q.1, q.2) := by
  induction xs generalizing h with
  | nil => simp [serve]
  | cons x xs ih =>
    rw [List.cons_append, serve, serve]
    cases handle l pairs h x with
    | none => rfl
    | some r =>
      obtain ⟨acts, h'⟩ := r
      simp only [ih h']
      cases serve l pairs h' xs with
      | none => rfl
      | some q => simp [Function.comp_def, List.append_assoc]

/-- The configuration the handlers leave in the host is the one their acts leave in the block. -/
theorem serve_cfg {l : Launch} {pairs : List PronounPair} {h h' : HostMemory} {xs : List Trigger}
    {acts : List HostAct} (hx : serve l pairs h xs = some (acts, h')) : h'.cfg = cfgAfter h.cfg acts := by
  induction xs generalizing h acts with
  | nil =>
    cases hx
    rfl
  | cons x xs ih =>
    unfold serve at hx
    cases hh : handle l pairs h x with
    | none => rw [hh] at hx; cases hx
    | some r =>
      obtain ⟨first, mid⟩ := r
      rw [hh] at hx
      obtain ⟨q, hq, hp⟩ := Option.map_eq_some_iff.mp hx
      cases hp
      rw [ih hq, handle_cfg hh, cfgAfter_append]

end Sys2Proof.Machine
end

