-- ==== Sys2Proof/Laws/PerInstr.lean ====
section
/-! SUPPORT. Per command: its word has its row's match under its row's mask, so every reserved bit is 0 and the opcode is
R100's (30_encoding.md R91, R100, R101). -/

namespace Sys2Proof.Laws.OpcodeMatch

/-- The word of `i` is matched by the row of `i`. -/
def Statement (i : Instr) : Prop := encode i &&& i.opcode.mask = i.opcode.pattern

theorem encodeChar (char : Byte) : Statement (.encodeChar char) := by
  apply BitVec.eq_of_getLsbD_eq
  intro j hj
  simp only [encode, Instr.opcode, Opcode.mask, Opcode.pattern, BitVec.getLsbD_and, BitVec.getLsbD_append]
  interval_cases j <;> simp

theorem printChar (disp : Disp) (pos : BitVec 3) (char : Byte) : Statement (.printChar disp pos char) := by
  apply BitVec.eq_of_getLsbD_eq
  intro j hj
  simp only [encode, Instr.opcode, Opcode.mask, Opcode.pattern, BitVec.getLsbD_and, BitVec.getLsbD_append]
  interval_cases j <;> simp

theorem clearDisplay (disp : Disp) : Statement (.clearDisplay disp) := by
  cases disp <;> rfl

theorem gamma (v : Byte) : Statement (.gamma v) := by
  apply BitVec.eq_of_getLsbD_eq
  intro j hj
  simp only [encode, Instr.opcode, Opcode.mask, Opcode.pattern, BitVec.getLsbD_and, BitVec.getLsbD_append]
  interval_cases j <;> simp

theorem setLed (chip : BitVec 4) (base : Byte) (color : Color) : Statement (.setLed chip base color) := by
  apply BitVec.eq_of_getLsbD_eq
  intro j hj
  simp only [encode, Instr.opcode, Opcode.mask, Opcode.pattern, BitVec.getLsbD_and, BitVec.getLsbD_append]
  interval_cases j <;> simp

theorem ledInit (chip : BitVec 4) : Statement (.ledInit chip) := by
  apply BitVec.eq_of_getLsbD_eq
  intro j hj
  simp only [encode, Instr.opcode, Opcode.mask, Opcode.pattern, BitVec.getLsbD_and, BitVec.getLsbD_append]
  interval_cases j <;> simp

theorem ledSelftest (chip : BitVec 4) : Statement (.ledSelftest chip) := by
  apply BitVec.eq_of_getLsbD_eq
  intro j hj
  simp only [encode, Instr.opcode, Opcode.mask, Opcode.pattern, BitVec.getLsbD_and, BitVec.getLsbD_append]
  interval_cases j <;> simp

theorem lerp (k : Byte) (ca cb : Color) : Statement (.lerp k ca cb) := by
  apply BitVec.eq_of_getLsbD_eq
  intro j hj
  simp only [encode, Instr.opcode, Opcode.mask, Opcode.pattern, BitVec.getLsbD_and, BitVec.getLsbD_append]
  interval_cases j <;> simp

theorem animBegin (idx : BitVec 16) : Statement (.animBegin idx) := by
  apply BitVec.eq_of_getLsbD_eq
  intro j hj
  simp only [encode, Instr.opcode, Opcode.mask, Opcode.pattern, BitVec.getLsbD_and, BitVec.getLsbD_append]
  interval_cases j <;> simp

theorem animStep : Statement .animStep := rfl

theorem blit : Statement .blit := rfl

end Sys2Proof.Laws.OpcodeMatch
end

