-- ==== Sys2Proof/Machine/Assembler.lean ====
section
/-! DEFINITION. The text of the assembler's source (30_encoding.md R108, R110): lines to source lines, source lines to
words. What R108 leaves open of the text is log 25. -/

namespace Sys2Proof.Machine

/-- The apostrophe of a character literal. -/
def apostrophe : Char := Char.ofNat 39

/-- A finished token, if there is one, before the tokens after it. -/
def pushToken (cur : List Char) (rest : List (List Char)) : List (List Char) :=
  if cur.isEmpty then rest else cur.reverse :: rest

/-- The tokens of a line up to a comment; `lit` counts the characters of an open character literal still to come, and
`cur` is the token being read, last character first. R108 says both that `;` starts a comment and that `'c'` is a character's
code, and not which holds of a `;` between apostrophes: DESIGN CHOICE (log 25), the two characters after an opening
apostrophe belong to the literal, so a `;` there starts no comment and a `,` separates nothing. Any whitespace separates
tokens, and none is needed at a comma (log 25). -/
def lexLine : Nat → List Char → List Char → List (List Char)
  | _, cur, [] => pushToken cur []
  | 0, cur, c :: rest =>
    if c = ';' then pushToken cur []
    else if c = ',' then pushToken cur ([','] :: lexLine 0 [] rest)
    else if c.isWhitespace then pushToken cur (lexLine 0 [] rest)
    else if c = apostrophe then lexLine 2 (c :: cur) rest
    else lexLine 0 (c :: cur) rest
  | lit + 1, cur, c :: rest => lexLine lit (c :: cur) rest

/-- The value of a digit in a base up to 16; a hexadecimal digit in either case (log 25). -/
def digitValue (base : Nat) (c : Char) : Option Nat :=
  let v := if c.isDigit then some (c.toNat - 48)
    else if 'a' ≤ c ∧ c ≤ 'f' then some (c.toNat - 87)
    else if 'A' ≤ c ∧ c ≤ 'F' then some (c.toNat - 55)
    else none
  v.bind fun n => if n < base then some n else none

/-- The number the digits spell, most significant first, after `acc`. -/
def digitsValue (base : Nat) : Nat → List Char → Option Nat
  | acc, [] => some acc
  | acc, c :: rest => (digitValue base c).bind fun d => digitsValue base (acc * base + d) rest

/-- A number, a character literal (its ASCII code) or a color literal (R108), each in any operand; no escapes in a literal, and
a character outside ASCII has no code (log 25). -/
def operandValue (t : List Char) : Option Nat :=
  match t with
  | [] => none
  | '0' :: 'x' :: d :: ds => digitsValue 16 0 (d :: ds)
  | '#' :: ds => if ds.length = 6 then digitsValue 16 0 ds else none
  | [a, c, b] =>
    if a = apostrophe ∧ b = apostrophe then (if c.toNat < 128 then some c.toNat else none)
    else digitsValue 10 0 [a, c, b]
  | _ => digitsValue 10 0 t

/-- Operands separated by commas. -/
def operandList : List (List Char) → Option (List Nat)
  | [] => some []
  | [t] => (operandValue t).map ([·])
  | t :: sep :: rest =>
    if sep = [','] ∧ rest ≠ [] then
      (operandValue t).bind fun v => (operandList rest).map (v :: ·)
    else none

/-- The source line of a mnemonic and its operands (R108's forms but `.word`). -/
def sourceForm (mnemonic : List Char) (ops : List Nat) : Option SourceLine :=
  match ops with
  | [] =>
    if mnemonic = "STEP".toList then some .animStep
    else if mnemonic = "BLIT".toList then some .blit
    else none
  | [a] =>
    if mnemonic = "ENCODE".toList then some (.encodeChar a)
    else if mnemonic = "CLEAR_DISPLAY".toList then some (.clearDisplay a)
    else if mnemonic = "GAMMA".toList then some (.gamma a)
    else if mnemonic = "LED_INIT".toList then some (.ledInit a)
    else if mnemonic = "LED_SELFTEST".toList then some (.ledSelftest a)
    else if mnemonic = "BEGIN".toList then some (.animBegin a)
    else none
  | [a, b, c] =>
    if mnemonic = "PRINT_CHAR".toList then some (.printChar a b c)
    else if mnemonic = "SET_LED".toList then some (.setLed a b c)
    else if mnemonic = "LERP".toList then some (.lerp a b c)
    else none
  | _ => none

/-- The operand of `.word`: `0x` and sixteen hexadecimal digits (R108). -/
def rawWord (t : List Char) : Option Nat :=
  match t with
  | '0' :: 'x' :: ds => if ds.length = 16 then digitsValue 16 0 ds else none
  | _ => none

/-- The source line of a line's tokens. -/
def sourceLine (m : List Char) (rest : List (List Char)) : Option SourceLine :=
  if m = ".word".toList then
    match rest with
    | [t] => (rawWord t).map .word
    | _ => none
  else (operandList rest).bind fun ops => sourceForm m ops

/-- A line's words: none for a blank or comment line, one for a command; no answer is an assembly error (R108). -/
def assembleLine (line : List Char) : Option (List Word) :=
  match lexLine 0 [] line with
  | [] => some []
  | m :: rest => (sourceLine m rest).bind fun l => l.assemble.map ([·])

/-- A program: the words of its lines, first to last (R110). -/
def assembleProgram : List (List Char) → Option (List Word)
  | [] => some []
  | l :: ls => (assembleLine l).bind fun ws => (assembleProgram ls).map (ws ++ ·)

end Sys2Proof.Machine
end

