-- ==== Sys2Proof/Tests/Slice0.lean ====
section
/-! SUPPORT. Tests. Every expected value is the spec's: 95_test_vectors.md (its sections are named), 30_encoding.md R101, R108,
or hand calculation from the rule named. The gamma table here is 0 up to 254 and 255 at 255, so G(255) = 0xFF and G of
anything else is 0; the chips' lists are placeholders, one write each. -/

namespace Sys2Proof.Tests

open Sys2Proof Sys2Proof.Machine

/-! ### The ill-formed lines the assembler refuses (R108), one per check, and the largest legal ones -/

theorem test_wf_encode : (SourceLine.encodeChar 256).wellFormed = false := by decide
theorem test_wf_print_disp : (SourceLine.printChar 2 0 0).wellFormed = false := by decide
theorem test_wf_print_pos : (SourceLine.printChar 0 8 0).wellFormed = false := by decide
theorem test_wf_print_char : (SourceLine.printChar 0 0 256).wellFormed = false := by decide
theorem test_wf_clear : (SourceLine.clearDisplay 2).wellFormed = false := by decide
theorem test_wf_gamma : (SourceLine.gamma 256).wellFormed = false := by decide
theorem test_wf_set_led_chip : (SourceLine.setLed 16 0 0).wellFormed = false := by decide
theorem test_wf_set_led_base : (SourceLine.setLed 0 256 0).wellFormed = false := by decide
theorem test_wf_set_led_color : (SourceLine.setLed 0 0 0x1000000).wellFormed = false := by decide
theorem test_wf_led_init : (SourceLine.ledInit 16).wellFormed = false := by decide
theorem test_wf_led_selftest : (SourceLine.ledSelftest 16).wellFormed = false := by decide
theorem test_wf_lerp_ca : (SourceLine.lerp 0x1000000 0 0).wellFormed = false := by decide
theorem test_wf_lerp_cb : (SourceLine.lerp 0 0x1000000 0).wellFormed = false := by decide
theorem test_wf_lerp_k : (SourceLine.lerp 0 0 256).wellFormed = false := by decide
theorem test_wf_begin : (SourceLine.animBegin 65536).wellFormed = false := by decide
theorem test_wf_word : (SourceLine.word 0x10000000000000000).wellFormed = false := by decide
theorem test_wf_largest : (SourceLine.setLed 15 255 0xFFFFFF).wellFormed = true ∧
    (SourceLine.printChar 1 7 255).wellFormed = true ∧ (SourceLine.animBegin 65535).wellFormed = true := by decide
theorem test_wf_not_assembled : (SourceLine.printChar 0 8 65).assemble = none := by decide

/-! ### Decoding: words written out bit by bit from R91, and section 8 of 95_test_vectors.md -/

theorem test_decode_encode : decode 0x0100000000000041 = .ok (.encodeChar 0x41) := by decide
theorem test_decode_print : decode 0x020104000000007A = .ok (.printChar .d1 4 0x7A) := by decide
theorem test_decode_clear : decode 0x0301000000000000 = .ok (.clearDisplay .d1) := by decide
theorem test_decode_gamma : decode 0x1000000000000080 = .ok (.gamma 0x80) := by decide
theorem test_decode_set_led : decode 0x1120110000123456 = .ok (.setLed 2 0x11 0x123456) := by decide
theorem test_decode_led_init : decode 0x1210000000000000 = .ok (.ledInit 1) := by decide
theorem test_decode_led_selftest : decode 0x1300000000000000 = .ok (.ledSelftest 0) := by decide
theorem test_decode_lerp : decode 0x203CFF00000000FF = .ok (.lerp 60 0xFF0000 0x0000FF) := by decide
theorem test_decode_begin : decode 0x3000000000000003 = .ok (.animBegin 3) := by decide
theorem test_decode_step : decode 0x3100000000000000 = .ok .animStep := by decide
theorem test_decode_blit : decode 0x3200000000000000 = .ok .blit := by decide
theorem test_decode_reserved : decode 0x0100000000000100 = .error .reservedBits ∧
    decode 0x0202000000000041 = .error .reservedBits ∧ decode 0x0300000000000001 = .error .reservedBits ∧
    decode 0x3100000000000001 = .error .reservedBits ∧ decode 0x1101FF0000000000 = .error .reservedBits := by decide
theorem test_decode_unassigned : decode 0 = .error .unassigned ∧ decode 0xFF00000000000000 = .error .unassigned ∧
    decode 0x0400000000000000 = .error .unassigned := by decide
/-- `1 ++ 0^6 ++ 10 | 0^7 ++ 1 | 0^5 ++ 011 | 0^32 | 01001000`: op, rsv, disp, rsv, pos, rsv, char (R91 format D). -/
theorem test_decode_print_bits :
    decode (0b00000010#8 ++ 0b0000000#7 ++ 0b1#1 ++ 0b00000#5 ++ 0b011#3 ++ 0#32 ++ 0b01001000#8) =
      .ok (.printChar .d1 3 0x48) := by decide
/-- op, chip, rsv, base, rsv, color (R91 format S). -/
theorem test_decode_set_led_bits :
    decode (0b00010001#8 ++ 0b1111#4 ++ 0b0000#4 ++ 0b10100101#8 ++ 0#16 ++ 0b100000000000000000000001#24) =
      .ok (.setLed 15 0xA5 0x800001) := by decide
/-- op, k, ca, cb (R91 format L). -/
theorem test_decode_lerp_bits :
    decode (0b00100000#8 ++ 0b11001000#8 ++ 0x800000#24 ++ 0x000001#24) =
      .ok (.lerp 200 0x800000 0x000001) := by decide
theorem test_table_word : decodeTableWord 64 0x1210000000000000 = some (.ledInit 1) ∧
    decodeTableWord 64 0x0400000000000000 = none ∧ decodeTableWord 65 0 = none := by decide

/-! ### The assembler's text (R108, with the words of section 9) -/

theorem test_assemble_print : assembleLine "  PRINT_CHAR 0, 0, 'H' ; first letter".toList = some [0x0200000000000048] := by
  decide
/-- Log 25: a semicolon or comma inside a character literal is its character. -/
theorem test_assemble_literal_separators : assembleLine "ENCODE ';' ; comment".toList = some [0x010000000000003B] ∧
    assembleLine "PRINT_CHAR 0,0,','".toList = some [0x020000000000002C] := by decide
theorem test_assemble_lerp : assembleLine "LERP #FF0000, #0000FF, 40".toList = some [0x2028FF00000000FF] := by decide
theorem test_assemble_error : assembleLine "SET_LED 16, 1, #FF0000".toList = none ∧
    assembleLine "NOPE 1".toList = none ∧ assembleLine ".word 0xFF".toList = none ∧ assembleLine "STEP,".toList = none := by decide
theorem test_assemble_program : assembleProgram ["; nothing".toList, "BEGIN 3".toList, ".word 0x00000000000000FF".toList] =
    some [0x3000000000000003, 0xFF] := by decide

/-! ### A small machine -/

def one (r b : Byte) : TxnGroup := ⟨⟨r, ⟨b, []⟩⟩, []⟩
def lit (r : Byte) : TxnGroup := ⟨⟨r, ⟨0xFF, [0xFF, 0xFF, 0xFF]⟩⟩, []⟩

def chipAt (addr : BusAddr) : Chip where
  addr := addr
  resetTxns := one 1 11
  scaleTxns := one 2 22
  blankTxns := one 3 33
  ceilTxns := one 4 44
  ceilTxnsOverdrive := one 4 55
  normalTxns := one 5 66
  selfTest := [⟨0x10, lit 0x10⟩, ⟨0x12, lit 0x12⟩]
  lawful := by decide

def c0 : Chip := chipAt 0x30
def c1 : Chip := chipAt 0x31
def chips (n : Nat) : List Chip := ((List.range 6).map fun i => chipAt (0x30 + i)).take n

theorem chips_distinct (n : Nat) : ((chips n).map Chip.addr).Nodup := by
  unfold chips
  rw [List.map_take]
  exact List.Nodup.sublist (List.take_sublist _ _) (by decide)

/-- Palettes: 0 Fade, 1 Sparkle with fade and mix, 2 Sparkle without fade, 3 an unknown style, 4 Sweep of one color,
5 Sparkle with fade, without mix. -/
def palettes : NonEmpty Palette :=
  ⟨⟨⟨0xFF0000, [0x00FF00, 0x0000FF]⟩, ⟨.fade, false, false⟩⟩,
   [⟨⟨0xFF0000, [0x0000FF]⟩, ⟨.sparkle, true, true⟩⟩,
    ⟨⟨0xFF0000, [0x0000FF]⟩, ⟨.sparkle, false, false⟩⟩,
    ⟨⟨0xFF0000, []⟩, ⟨.unknown "twinkle", true, true⟩⟩,
    ⟨⟨0xFFFFFF, []⟩, ⟨.sweep, false, false⟩⟩,
    ⟨⟨0xFF0000, [0x0000FF]⟩, ⟨.sparkle, true, false⟩⟩]⟩

def launchOf (n : Nat) (p : OpenParams) : Launch where
  palettes := palettes
  gamma := ⟨_, Config.stepTable_lawful 255 rfl⟩
  attached := chips n
  distinct := chips_distinct n
  params := p

def cfgOf (order : String) : Cfg := { Cfg.missing with pixelOrder := some order }

def start (n : Nat) (order : String) : State := .launched (launchOf n (.default 5 200)) (cfgOf order)

/-- The defaults of section 0: one chip, "RGB". -/
def s0 : State := start 1 "RGB"

def withParams (n : Nat) (order : String) (p : OpenParams) : State := .launched (launchOf n p) (cfgOf order)

def after (i : Instr) (s : State) : State :=
  match exec i s with
  | .next t => t
  | .fault _ => s
  | .refused _ => s

def playing (a : Anim) (s : State) : State := { s with anim := some a }

def draw025 : Draw := ⟨0, 2, 5, by decide⟩
def draw123 : Draw := ⟨1, 2, 3, by decide⟩

/-- The three transactions of one group of chip c0 (section 0's shorthand). -/
def group (base x y z : Byte) : List Event :=
  [.txn ⟨0x30, base, [0, x]⟩, .txn ⟨0x30, base + 2, [0, y]⟩, .txn ⟨0x30, base + 4, [0, z]⟩]

/-! ### Display (sections 1.1, 3, 4) -/

theorem test_encode_A : (after (.encodeChar 0x41) s0).result = some (.pattern 0x21) := by decide
theorem test_encode_masked : (after (.encodeChar 0xC1) s0).result = some (.pattern 0x21) ∧
    (after (.encodeChar 0x20) s0).result = some (.pattern 0x40) := by decide
theorem test_print_A : (after (.printChar .d0 0 0x41) s0).trace =
    [.pin .a0 false, .pin .a1 false, .pin .ser true, .pin .sclk true, .pin .sclk false,
     .pin .ser false, .pin .sclk true, .pin .sclk false, .pin .ser false, .pin .sclk true, .pin .sclk false,
     .pin .ser false, .pin .sclk true, .pin .sclk false, .pin .ser false, .pin .sclk true, .pin .sclk false,
     .pin .ser true, .pin .sclk true, .pin .sclk false, .pin .ser false, .pin .sclk true, .pin .sclk false,
     .pin .weN0 false, .pin .rclk true, .pin .rclk false, .pin .weN0 true] := by decide
theorem test_print_pos5 : (after (.printChar .d0 5 0x41) s0).fault = some (.illegalPosition 5) ∧
    (after (.printChar .d0 5 0x41) s0).trace = [] := by decide
theorem test_clear_events : (after (.clearDisplay .d1) s0).trace.length = 135 := by decide +kernel

def cellsAfter (s : State) : List (Option Code) :=
  match refRun .initial s.trace with
  | .ok r => r.cells
  | .error _ => []

/-- 4.8: cell (1, 3). -/
theorem test_cell_H : cellsAfter (after (.printChar .d1 3 0x48) s0) =
    [none, none, none, none, none, none, none, some 0x48] := by decide
/-- 4.12: position 4 aliases address 0. -/
theorem test_cells_clear : cellsAfter (after (.clearDisplay .d1) s0) =
    [none, none, none, none, some 0x20, some 0x20, some 0x20, some 0x20] := by decide +kernel

/-! ### LED driver (section 5) -/

theorem test_gamma_255 : (after (.gamma 255) s0).result = some (.intensity 255) ∧
    (after (.gamma 0) s0).result = some (.intensity 0) := by decide
/-- 5.4 -/
theorem test_set_led : (after (.setLed 0 1 0xFF0000) s0).trace = group 1 0xFF 0 0 ∧
    (after (.setLed 0 1 0xFF0000) s0).result = some (.register 5) := by decide
/-- 5.7: "GRB", Component. -/
theorem test_set_led_component :
    (after (.setLed 0 1 0xFF0000)
      (withParams 1 "GRB" { OpenParams.default 5 200 with slotLayout := .component })).trace =
      [.txn ⟨0x30, 3, [0, 0xFF]⟩, .txn ⟨0x30, 1, [0, 0]⟩, .txn ⟨0x30, 5, [0, 0]⟩] := by decide
/-- 5.17 and 5.18. -/
theorem test_led_init : (after (.ledInit 0) s0).trace =
    [.txn ⟨0x30, 1, [11]⟩, .txn ⟨0x30, 2, [22]⟩, .txn ⟨0x30, 3, [33]⟩, .txn ⟨0x30, 4, [44]⟩,
     .txn ⟨0x30, 5, [66]⟩] := by decide
theorem test_led_init_overdrive :
    (after (.ledInit 0) { s0 with cfg := { s0.cfg with overdrive := some true } }).trace[3]? =
      some (.txn ⟨0x30, 4, [55]⟩) := by decide
/-- 5.19 -/
theorem test_led_selftest : (after (.ledSelftest 0) s0).trace =
    [.txn ⟨0x30, 0x10, [0xFF, 0xFF, 0xFF, 0xFF]⟩, .delay 5, .txn ⟨0x30, 0x12, [0xFF, 0xFF, 0xFF, 0xFF]⟩, .delay 5,
     .txn ⟨0x30, 3, [33]⟩] := by decide
/-- 5.20 -/
theorem test_led_selftest_no_chip : (after (.ledSelftest 0) (start 0 "RGB")).fault = some (.noChip 0) := by decide
/-- R163: consecutive windows must overlap, and each must light its four registers. -/
theorem test_self_test_laws : selfTestLawful [⟨0x10, lit 0x10⟩, ⟨0x14, lit 0x14⟩] = false ∧
    selfTestLawful [⟨0x10, lit 0x11⟩] = false := by decide

/-! ### Interpolator (section 6) -/

/-- 6.3 -/
theorem test_lerp_floor : (after (.lerp 50 0xFFFFFF 0x000000) s0).result = some (.triad ⟨127, 127, 127⟩) := by decide
/-- 6.14 -/
theorem test_lerp_negative :
    (after (.lerp 255 0x808080 0x000000) s0).result = some (.triad ⟨-199, -199, -199⟩) := by decide

/-! ### Animation (section 7) -/

/-- 7.1 -/
theorem test_begin : (after (.animBegin 0) s0).trace =
    group 0x01 0xFF 0 0 ++ group 0x09 0xFF 0 0 ++ group 0x11 0xFF 0 0 ++ group 0x19 0xFF 0 0 ++
      group 0x21 0xFF 0 0 ++ group 0x29 0xFF 0 0 ++ [.txn ⟨0x30, 3, [33]⟩] := by decide
/-- 8.1: the 5th transaction fails; the fields BEGIN writes stay written. -/
theorem test_begin_bus_fault :
    (after (.animBegin 0) { s0 with answers := [.ok, .ok, .ok, .ok, .fail] }).fault =
      some (.busFault ⟨0x30, 0x0B, [0, 0]⟩) ∧
    (after (.animBegin 0) { s0 with answers := [.ok, .ok, .ok, .ok, .fail] }).anim = some ⟨0, 0, false, 0, []⟩ := by
  decide
/-- 7.3, tick 6: the commit, the blend at 100 on groups 2 and 5. -/
theorem test_step_commit :
    (after .animStep (playing ⟨1, 0, true, 80, [0, 2, 5]⟩ s0)).anim = some ⟨1, 1, false, 0, [0, 2, 5]⟩ ∧
    (after .animStep (playing ⟨1, 0, true, 80, [0, 2, 5]⟩ s0)).trace =
      group 0x01 0 0 0 ++ group 0x09 0 0 0xFF ++ group 0x11 0 0 0 ++ group 0x19 0 0 0 ++ group 0x21 0 0 0xFF ++
        group 0x29 0 0 0 := by decide
/-- 7.4: without fade every tick is a new cycle and advances first. -/
theorem test_step_hard_cut :
    (after .animStep (playing ⟨2, 0, true, 0, []⟩ { s0 with draws := [draw123] })).anim =
      some ⟨2, 1, true, 0, [1, 2, 3]⟩ := by decide
/-- 7.1, PerEntry with two chips: both get the same base. -/
theorem test_blit_per_entry :
    (after .blit { withParams 2 "RGB" { OpenParams.default 5 200 with blitThreading := .perEntry } with
      buf := [0xFF0000] }).trace =
      group 0x01 0xFF 0 0 ++
        [.txn ⟨0x31, 1, [0, 0xFF]⟩, .txn ⟨0x31, 3, [0, 0]⟩, .txn ⟨0x31, 5, [0, 0]⟩] := by decide
/-- BLIT after reset: no event, no fault. -/
theorem test_blit_empty : (after .blit s0).trace = [] ∧ (after .blit s0).fault = none := by decide
/-- R218: of seven pushes the first is gone. -/
theorem test_frame_evicts : (pushFrame (fun g => BitVec.ofNat 24 g.val) s0).buf = [1, 2, 3, 4, 5, 6] := by decide

/-! ### The step and the host (sections 1.7, 1.8, 8.1) -/

/-- `s` with one act of the host to come. -/
def given (a : HostAct) (s : State) : State := { s with commands := [a] }

def stepped (s : State) : State :=
  match step s with
  | .next t => t
  | .fault _ => s
  | .refused _ => s

theorem test_step_runs : (stepped (given (.command 0x0100000000000048) s0)).result = some (.pattern 0x28) ∧
    (stepped (given (.command 0x0100000000000048) s0)).index = 1 := by decide
theorem test_step_illegal : (stepped (given (.command 0x0400000000000000) s0)).fault =
    some (.illegalCommand 0x0400000000000000 .unassigned) := by decide
theorem test_debounce : (Debouncer.fresh 200).count [0, 150] = 1 ∧ (Debouncer.fresh 200).count [0, 250] = 2 ∧
    (Debouncer.fresh 200).count [0, 200] = 2 ∧ (Debouncer.fresh 200).count [0, 150, 250] = 2 := by decide
/-- 1.8: with two palettes and flag 0, the previous flag is 1; with three pairs and index 2, the next is 0. -/
theorem test_selection : prevIndex 2 0 = 1 ∧ nextIndex 3 2 = 0 := by decide
theorem test_flag_prev : flagPrev (launchOf 1 (.default 5 200)) (cfgOf "RGB") =
    some [.configure { cfgOf "RGB" with flag := some 5 }, .command 0x3000000000000005] := by decide

/-- One pair of one character. -/
def hPair : PronounPair := ⟨[0x48], [], by decide⟩

/-- R292: initialise, render the pronouns, BEGIN. -/
theorem test_boot : bootActs (launchOf 1 (.default 5 200)) (cfgOf "RGB") [hPair] false =
    some [.command 0x1200000000000000, .command 0x0300000000000000, .command 0x0200000000000048,
      .command 0x0301000000000000, .command 0x3000000000000000] := by decide
/-- R292: a flag past the palettes issues a BEGIN that raises `BadPalette`, one past 16 bits too. -/
theorem test_boot_bad_flag : beginFlag (launchOf 1 (.default 5 200)) 6 = some (.command 0x3000000000000006) ∧
    beginFlag (launchOf 1 (.default 5 200)) 65536 = some (.command 0x300000000000FFFF) ∧
    (after (.animBegin 0xFFFF) s0).fault = some (.badPalette 0xFFFF) := by decide
/-- R259, R264: flag-next twice within the 200 ms of the launch, a tick between, flag-next again after it. -/
theorem test_serve :
    (serve (launchOf 1 (.default 5 200)) [] ⟨{ cfgOf "RGB" with animationFps := some 25 }, .ofLaunch (launchOf 1 (.default 5 200))⟩
      [.edge .flagNext 0, .tick, .edge .flagNext 150, .edge .flagNext 200]).map (fun r => r.1) =
    some [.configure { cfgOf "RGB" with animationFps := some 25, flag := some 1 }, .command 0x3000000000000001,
      .command 0x3100000000000000,
      .configure { cfgOf "RGB" with animationFps := some 25, flag := some 2 }, .command 0x3000000000000002] := by
  decide
/-- R263: 1000 / fps. -/
theorem test_tick_period : tickPeriodMs { cfgOf "RGB" with animationFps := some 25 } = some 40 ∧
    tickPeriodMs (cfgOf "RGB") = none := by
  constructor
  · simp [tickPeriodMs, Cfg.fps]
    norm_num
  · rfl

/-! ### Witnesses: for each statement of Certificates/Slice0/Obligations.lean with hypotheses, a state and operands that
meet them all; for one with several cases, one per case at its boundary -/

def rgb : PixelOrder := ⟨.red, .green, .blue⟩

/-- The state after BEGIN 0, on its last color. -/
def fading : State := playing ⟨0, 2, false, 0, []⟩ s0

theorem test_witness_EncodeOfDecode : decode 0x11F0FA0000FFFFFF = .ok (.setLed 15 0xFA 0xFFFFFF) := by decide
theorem test_witness_RowsAreDisjoint : Opcode.printChar.selects 0x0201070000000041 = true := by decide
theorem test_witness_IllegalWords : decode 0x3100000000000001 = .error .reservedBits ∧ decode 0 = .error .unassigned := by
  decide
theorem test_witness_StepRunsTheDecodedCommand : s0.fault = none ∧
    (given (.command 0x3100000000000000) s0).commands = .command 0x3100000000000000 :: [] ∧
    decode 0x3100000000000000 = .ok .animStep := by decide
theorem test_witness_IllegalWordChangesOnlyTheFault : s0.fault = none ∧
    (given (.command 0) s0).commands = .command 0 :: [] ∧ decode 0 = .error .unassigned := by decide
theorem test_witness_NothingRunsAfterAFault : (after .animStep s0).fault = some .noPalette := by decide
theorem test_witness_running : s0.fault = none := by decide
theorem test_witness_HostActsBetweenCommands : s0.fault = none ∧
    (given (.configure Cfg.missing) s0).commands = .configure Cfg.missing :: [] ∧ s0.commands = [] := by decide
theorem test_witness_CommandsKeepInputs : exec (.encodeChar 0x41) s0 =
    .next { s0 with result := some (.pattern 0x21) } := rfl
theorem test_witness_LaunchDataIsChecked_accepted :
    (Launch.load ⟨[⟨[0xFF0000], "fade", none, none⟩], (launchOf 1 (.default 5 200)).gamma.entries, [c0, c1],
      .default 5 200⟩).isOk = true := by decide +kernel
theorem test_witness_LaunchDataIsChecked_refused :
    Launch.load ⟨[], [], [], .default 5 200⟩ = .error .noPalettes ∧
    Launch.load ⟨[⟨[], "fade", none, none⟩], [], [], .default 5 200⟩ = .error (.emptyPalette 0) := by decide
/-- A state between commands whose animation is on the last color of palette 0. -/
theorem fading_inv (n : Nat) (order : String) : (playing ⟨0, 2, false, 0, []⟩ (start n order)).Inv := by
  refine State.Inv.mk ?_ (Nat.zero_le _) (fun _ => rfl) (by intro i h; cases h)
  intro a h
  cases h
  exact ⟨⟨palettes.head, rfl, by decide⟩, by decide, by decide, List.Pairwise.nil, .inl rfl, by intro h; cases h⟩

theorem test_witness_StepKeepsInvariant : fading.Inv ∧
    step (given (.command 0x3100000000000000) fading) =
      .next (after .animStep { fading with index := 1 }) := ⟨fading_inv 1 "RGB", rfl⟩
theorem test_witness_TraceOnlyGrows : step (given (.command 0x0200000000000041) s0) =
    .next (after (.printChar .d0 0 0x41) { s0 with index := 1 }) := rfl
theorem test_witness_PrintCharCompletes : s0.fault = none ∧
    s0.launch.params.addrMap[(4#3).toNat]? = some ⟨false, false⟩ := by decide
theorem test_witness_PrintCharFaultsPastPositionFour : s0.fault = none ∧ (4#3).toNat ≤ 4 ∧ ¬(5#3).toNat ≤ 4 := by decide
theorem test_witness_DisplayCommands : exec (.printChar .d0 5 0x41) s0 =
    .next { s0 with fault := some (.illegalPosition 5) } := rfl
theorem test_witness_PrintedCharReachesItsCell : s0.launch.params.addrMap[(4#3).toNat]? = some ⟨false, false⟩ ∧
    s0.fault = none ∧ exec (.printChar .d0 4 0x5A) s0 = .next (after (.printChar .d0 4 0x5A) s0) ∧
    (after (.printChar .d0 4 0x5A) s0).trace = s0.trace ++ (after (.printChar .d0 4 0x5A) s0).trace ∧
    Ref.initial.pins.sclk ≠ some true ∧ Ref.initial.pins.rclk ≠ some true :=
  ⟨rfl, rfl, rfl, rfl, by decide, by decide⟩
theorem test_witness_SetLedCompletes : s0.fault = none ∧ s0.activeChips[(0#4).toNat]? = some c0 ∧
    pixelOrder s0.cfg.pixelOrder = some rgb ∧ (250#8).toNat ≤ 250 ∧ s0.BusOk 3 := by
  unfold State.BusOk
  decide
theorem test_witness_SetLedCompletes_component : s0.launch.params.slotLayout = .slot ∧
    (withParams 1 "GRB" { OpenParams.default 5 200 with slotLayout := .component }).launch.params.slotLayout =
      .component := by decide
theorem test_witness_SetLedFaultsBeforeAnyEvent : s0.activeChips.length ≤ (1#4).toNat ∧
    (¬s0.activeChips.length ≤ (0#4).toNat ∧ pixelOrder (start 1 "RRG").cfg.pixelOrder = none) ∧
    (pixelOrder s0.cfg.pixelOrder ≠ none ∧ 250 < (251#8).toNat ∧ ¬250 < (250#8).toNat) := by decide
theorem test_witness_SetLedBusFault : ({ s0 with answers := [.ok, .fail] } : State).fault = none ∧
    s0.activeChips[(0#4).toNat]? = some c0 ∧ pixelOrder s0.cfg.pixelOrder = some rgb ∧ (1#8).toNat ≤ 250 ∧
    ({ s0 with answers := [.ok, .fail] } : State).answers = List.replicate 1 .ok ++ .fail :: [] ∧
    (groupTxns s0.launch.params s0.launch.gamma rgb c0.addr 1 0xFF0000)[1]? = some ⟨0x30, 3, [0, 0]⟩ := by decide
theorem test_witness_LedInitCompletes : s0.fault = none ∧ s0.activeChips[(0#4).toNat]? = some c0 ∧ s0.BusOk 5 ∧
    s0.cfg.overdrive ≠ some true ∧
    (groupOf c0.addr c0.resetTxns ++ groupOf c0.addr c0.scaleTxns ++ groupOf c0.addr c0.blankTxns ++
      groupOf c0.addr c0.ceilTxns ++ groupOf c0.addr c0.normalTxns).length = 5 := by
  unfold State.BusOk
  decide
theorem test_witness_BusFaultStopsTheSequence_init : ({ s0 with answers := [.fail] } : State).fault = none ∧
    s0.activeChips[(0#4).toNat]? = some c0 ∧
    ({ s0 with answers := [.fail] } : State).answers = List.replicate 0 .ok ++ .fail :: [] ∧
    (groupOf c0.addr c0.resetTxns ++ groupOf c0.addr c0.scaleTxns ++ groupOf c0.addr c0.blankTxns ++
      groupOf c0.addr c0.ceilTxns ++ groupOf c0.addr c0.normalTxns)[0]? = some ⟨0x30, 1, [11]⟩ := by decide
/-- BEGIN, its fifth transaction failing (8.1), and LED_SELFTEST, its second, after a delay. -/
theorem test_witness_BusFaultStopsTheSequence :
    exec (.animBegin 0) { s0 with answers := [] } = .next (after (.animBegin 0) s0) ∧
    (after (.animBegin 0) s0).trace = s0.trace ++ (group 0x01 0xFF 0 0 ++ [.txn ⟨0x30, 0x09, [0, 0xFF]⟩]) ++
      .txn ⟨0x30, 0x0B, [0, 0]⟩ :: (after (.animBegin 0) s0).trace.drop 5 ∧
    ({ s0 with answers := [.ok, .ok, .ok, .ok, .fail] } : State).answers =
      List.replicate (txnCount (group 0x01 0xFF 0 0 ++ [.txn ⟨0x30, 0x09, [0, 0xFF]⟩])) .ok ++ .fail :: [] :=
  ⟨rfl, by decide, by decide⟩
theorem test_witness_BusFaultStopsTheSequence_selftest :
    exec (.ledSelftest 0) { s0 with answers := [] } = .next (after (.ledSelftest 0) s0) ∧
    (after (.ledSelftest 0) s0).trace = s0.trace ++
      [.txn ⟨0x30, 0x10, [0xFF, 0xFF, 0xFF, 0xFF]⟩, .delay 5] ++
      .txn ⟨0x30, 0x12, [0xFF, 0xFF, 0xFF, 0xFF]⟩ :: [.delay 5, .txn ⟨0x30, 3, [33]⟩] ∧
    txnCount [.txn ⟨0x30, 0x10, [0xFF, 0xFF, 0xFF, 0xFF]⟩, .delay 5] = 1 := ⟨rfl, by decide, by decide⟩
theorem test_witness_LedSelftestCompletes : s0.fault = none ∧ s0.activeChips[(0#4).toNat]? = some c0 ∧
    3 = (c0.selfTest.flatMap fun w => groupOf c0.addr w.writes).length + (groupOf c0.addr c0.blankTxns).length ∧
    s0.BusOk 3 := by
  unfold State.BusOk
  decide
theorem test_witness_ChipIndexPastTheActiveListFaults : s0.fault = none ∧
    (if s0.cfg.batterySaver = some true then s0.launch.attached.take 1 else s0.launch.attached).length ≤ (1#4).toNat ∧
    (if some true = some true then (launchOf 2 (.default 5 200)).attached.take 1
      else (launchOf 2 (.default 5 200)).attached).length ≤ (1#4).toNat := by decide
theorem test_witness_LedCommandsFrame : exec (.ledInit 0) s0 = .next (after (.ledInit 0) s0) := rfl
theorem test_witness_TransactionsNameActiveChips : exec (.animBegin 0) s0 = .next (after (.animBegin 0) s0) := rfl
theorem test_witness_RoundingIsAdmissible : (100 : Int) ∣ -300 := by decide
theorem test_witness_LerpCompletes_floor : s0.fault = none ∧ s0.launch.params.lerpRound = .floor := by decide
theorem test_witness_LerpStaysBetween : 0 ≤ 100 ∧ 100 ≤ 100 := by decide
theorem test_witness_BufPush : ([1, 2, 3, 4, 5, 6] : List Color).length = 6 := by decide
theorem test_witness_BufPop : 0 < ({ s0 with buf := [1] } : State).buf.length := by decide
theorem test_witness_FrameEvictsGroupZero : s0.buf = [] := by decide
theorem test_witness_BlitCompletes : ({ s0 with buf := [1, 2, 3, 4, 5, 6] } : State).fault = none ∧
    pixelOrder s0.cfg.pixelOrder = some rgb ∧ BlitFits s0.launch.params rgb s0.activeChips.length 6 ∧
    s0.BusOk (3 * s0.activeChips.length * 6) := by
  unfold State.BusOk BlitFits
  decide
theorem test_witness_BlitCompletes_noChips : (start 0 "RRG").activeChips = [] ∧
    BlitFits (start 0 "RRG").launch.params rgb 0 6 := by
  unfold BlitFits
  decide
theorem test_witness_BlitNeedsAPixelOrder : ({ start 1 "RRG" with buf := [7] } : State).fault = none ∧
    ({ start 1 "RRG" with buf := [7] } : State).buf = 7 :: [] ∧ (start 1 "RRG").activeChips ≠ [] ∧
    pixelOrder (start 1 "RRG").cfg.pixelOrder = none := by decide
theorem test_witness_BlitNeedsAPixelOrder_begin :
    (start 1 "RRG").launch.palettes.toList[(5#16).toNat]? = some ⟨⟨0xFF0000, [0x0000FF]⟩, ⟨.sparkle, true, false⟩⟩ ∧
    (start 1 "RRG").launch.params.beginOrder = .renderThenBlank ∧
    (withParams 1 "RRG" { OpenParams.default 5 200 with beginOrder := .blankThenRender }).BusOk
      (blankTxns (withParams 1 "RRG" { OpenParams.default 5 200 with beginOrder := .blankThenRender }).activeChips).length := by
  unfold State.BusOk
  decide
theorem test_witness_BlitNeedsAPixelOrder_step :
    (playing ⟨0, 2, false, 0, []⟩ (start 1 "RRG")).Inv ∧
    (start 1 "RRG").launch.palettes.toList[0]? = some palettes.head ∧ (∀ tag, palettes.head.desc.style ≠ .unknown tag) ∧
    exec .animStep (playing ⟨0, 2, false, 0, []⟩ s0) = .next (after .animStep (playing ⟨0, 2, false, 0, []⟩ s0)) :=
  ⟨fading_inv _ _, rfl, (by intro t h; cases h), rfl⟩
/-- 8.1: an illegal order stops BEGIN in its first group. -/
theorem test_begin_pixel_order : (after (.animBegin 0) (start 1 "RGX")).fault = some (.pixelOrder (some "RGX")) ∧
    (after (.animBegin 0) (start 1 "RGX")).trace = [] := by decide

/-- A full buffer and `n` chips. -/
def full (n : Nat) : State := { start n "RGB" with buf := [1, 2, 3, 4, 5, 6] }

theorem test_witness_SixChipsPassTheLastRegister : (full 6).fault = none ∧ (full 6).buf.length = 6 ∧
    pixelOrder (full 6).cfg.pixelOrder = some rgb ∧ (full 6).launch.params.blitThreading = .perCall ∧
    (full 6).launch.params.slotLayout = .slot ∧ (full 6).launch.params.firstBase = 1 ∧
    (∀ a ∈ (full 6).answers, a = .ok) ∧ 6 ≤ (full 6).activeChips.length ∧ ¬6 ≤ (full 5).activeChips.length := by
  decide
theorem test_witness_SixChips_answers : exec .blit (full 6) = .next (after .blit (full 6)) ∧
    exec .blit (full 5) = .next (after .blit (full 5)) := ⟨rfl, rfl⟩
theorem test_witness_SixChips_begin : (start 6 "RGB").launch.palettes.toList[(0#16).toNat]? = some palettes.head ∧
    exec (.animBegin 0) (start 6 "RGB") = .next (after (.animBegin 0) (start 6 "RGB")) ∧
    (start 6 "RGB").launch.params.beginOrder = .renderThenBlank := ⟨rfl, rfl, rfl⟩
theorem test_witness_SixChips_step : (playing ⟨0, 2, false, 0, []⟩ (start 6 "RGB")).Inv ∧
    (start 6 "RGB").launch.palettes.toList[0]? = some palettes.head ∧ (∀ tag, palettes.head.desc.style ≠ .unknown tag) ∧
    exec .animStep (playing ⟨0, 2, false, 0, []⟩ (start 6 "RGB")) =
      .next (after .animStep (playing ⟨0, 2, false, 0, []⟩ (start 6 "RGB"))) :=
  ⟨fading_inv _ _, rfl, (by intro t h; cases h), rfl⟩
/-- 7.1: BEGIN with six chips, 96 transactions and `RegisterRange(0x101)`. -/
theorem test_begin_six_chips : (after (.animBegin 0) (start 6 "RGB")).fault = some (.registerRange 0x101) ∧
    (after (.animBegin 0) (start 6 "RGB")).trace.length = 96 := by decide +kernel
theorem ready (s : State) (h : s.fault = none) (hb : s.buf = []) (hl : s.launch = s0.launch) (hc : s.cfg = s0.cfg)
    (ha : s.answers = []) (extra : Nat) : s.Ready rgb extra := by
  have active : s.activeChips = [c0] := by
    unfold State.activeChips
    rw [hc, hl]
    decide
  refine ⟨h, hb, fun _ => by rw [hc]; decide, ?_, ?_⟩
  · rw [active, hl]
    unfold BlitFits
    decide
  · unfold State.BusOk
    rw [ha]
    simp
theorem test_witness_BeginCompletes : s0.launch.palettes.toList[(4#16).toNat]? = some ⟨⟨0xFFFFFF, []⟩, ⟨.sweep, false, false⟩⟩ ∧
    ({ s0 with buf := [] } : State).Ready rgb (blankTxns s0.activeChips).length :=
  ⟨by decide, ready _ rfl rfl rfl rfl rfl _⟩
theorem test_witness_BeginSetsTheFieldsFirst : (5#16).toNat < s0.launch.palettes.size ∧
    exec (.animBegin 5) s0 = .next (after (.animBegin 5) s0) := ⟨by decide, rfl⟩
theorem test_witness_BeginAndStepFaultEarly : s0.fault = none ∧ s0.launch.palettes.size ≤ (6#16).toNat ∧ s0.begun = false := by
  decide
theorem test_witness_StepFlatCompletes : fading.anim = some ⟨0, 2, false, 0, []⟩ ∧
    fading.launch.palettes.toList[0]? = some palettes.head ∧ palettes.head.desc.style = .fade ∧
    palettes.head.colors.toList[(2 + 1) % palettes.head.colors.size]? = some 0xFF0000 ∧ fading.Ready rgb 0 :=
  ⟨by decide, by decide, by decide, by decide, ready fading rfl rfl rfl rfl rfl _⟩

def fadeMix : Palette := ⟨⟨0xFF0000, [0x0000FF]⟩, ⟨.sparkle, true, true⟩⟩
def fadeOnly : Palette := ⟨⟨0xFF0000, [0x0000FF]⟩, ⟨.sparkle, true, false⟩⟩

/-- The tick before the commit (60 to 80) and the commit (80 to 100), with mix; and without mix. -/
theorem test_witness_StepCrossfadeCompletes (progress : Nat) (_ : progress = 60 ∨ progress = 80) :
    (playing ⟨1, 1, true, progress, [0, 2, 5]⟩ s0).anim = some ⟨1, 1, true, progress, [0, 2, 5]⟩ ∧
    s0.launch.palettes.toList[1]? = some fadeMix ∧ fadeMix.desc.style = .sparkle ∧ fadeMix.desc.fade = true ∧
    fadeMix.colors.toList[1]? = some 0x0000FF ∧
    (if fadeMix.desc.mix then fadeMix.colors.toList[(1 + 1) % fadeMix.colors.size]? else some black) = some 0xFF0000 ∧
    (playing ⟨1, 1, true, progress, [0, 2, 5]⟩ s0).Ready rgb 0 :=
  ⟨rfl, by decide, by decide, by decide, by decide, by decide, ready (playing _ s0) rfl rfl rfl rfl rfl _⟩
theorem test_witness_StepCrossfadeCompletes_black : s0.launch.palettes.toList[5]? = some fadeOnly ∧
    (if fadeOnly.desc.mix then fadeOnly.colors.toList[(1 + 1) % fadeOnly.colors.size]? else some black) = some black := by
  decide
theorem test_witness_StepNewSparkleCompletes :
    (playing ⟨2, 1, true, 0, []⟩ { s0 with draws := [draw123] }).anim = some ⟨2, 1, true, 0, []⟩ ∧
    s0.launch.palettes.toList[2]? = some ⟨⟨0xFF0000, [0x0000FF]⟩, ⟨.sparkle, false, false⟩⟩ ∧
    (playing ⟨2, 1, true, 0, []⟩ { s0 with draws := [draw123] }).Ready rgb 0 :=
  ⟨rfl, by decide, ready (playing _ { s0 with draws := [draw123] }) rfl rfl rfl rfl rfl _⟩
theorem test_witness_StepUnknownStyleOnlyDiagnoses : (playing ⟨3, 0, false, 0, []⟩ s0).fault = none ∧
    (playing ⟨3, 0, false, 0, []⟩ s0).buf = [] ∧
    s0.launch.palettes.toList[3]? = some ⟨⟨0xFF0000, []⟩, ⟨.unknown "twinkle", true, true⟩⟩ := by decide
theorem test_witness_AnimationCommandsFrame : exec .animStep fading = .next (after .animStep fading) := rfl
theorem test_witness_AdvanceWraps : 0 < 1 := by decide
theorem test_witness_FlatStyleIndexLaw : fading.anim = some ⟨0, 2, false, 0, []⟩ ∧
    2 < palettes.head.colors.size ∧
    execAll (List.replicate 2 .animStep) fading = .next (after .animStep (after .animStep fading)) :=
  ⟨rfl, by decide, rfl⟩
/-- One tick and, at the other end, the sixth. -/
theorem test_witness_SparkleCycleTakesSixTicks :
    s0.launch.palettes.toList[1]? = some fadeMix ∧ fadeMix.desc.style = .sparkle ∧ fadeMix.desc.fade = true ∧
    0 < fadeMix.colors.size ∧
    execAll (List.replicate 1 .animStep) (playing ⟨1, 0, false, 0, []⟩ s0) =
      .next (after .animStep (playing ⟨1, 0, false, 0, []⟩ s0)) := ⟨by decide, by decide, by decide, by decide, rfl⟩
theorem test_witness_SparkleCycle_sixth :
    (match execAll (List.replicate 6 .animStep) (playing ⟨1, 0, false, 0, []⟩ { s0 with draws := [draw025] }) with
      | .next t => t.anim
      | .fault _ => none
      | .refused _ => none) = some ⟨1, 1, false, 0, [0, 2, 5]⟩ := by decide +kernel
theorem test_witness_DebounceWindow : (Debouncer.fresh 200).nextEligible ≤ 0 ∧ 0 ≤ 199 ∧ 199 < 0 + 200 ∧ 0 + 200 ≤ 200 := by
  decide
theorem test_witness_DebounceWindow_default : (Debouncer.ofLaunch (launchOf 1 (.default 5 200)) none).cooldown = 200 ∧
    (Debouncer.ofLaunch (launchOf 1 (.default 5 200)) (some 50)).cooldown = 50 := by decide
theorem test_witness_FlagSelectionWraps : (launchOf 1 (.default 5 200)).palettes.size ≤ 65536 ∧
    ({ cfgOf "RGB" with flag := some 5 } : Cfg).flag = some 5 ∧ (cfgOf "RGB").flag = none ∧ 0 < 1 ∧ 5 < 6 := by
  decide

end Sys2Proof.Tests
end

section
/-! ### The Channel Buffer (20_memory.md R65) -/

namespace Sys2Proof.Machine

/-- A full FIFO loses its head, the oldest entry; the pushed color is the last. -/
theorem fifoPush_eq_tail_append (cap : Nat) (l : List Color) (c : Color) :
    fifoPush cap l c = (if l.length = cap then l.tail else l) ++ [c] := by
  rw [fifoPush, List.drop_one]

/-- Settles O41: the buffer by `fifoPush_eq_tail_append`, its bound by `fifoPush_length`. -/
theorem bufPushEvictsTheOldest : Obligations.BufPushEvictsTheOldest := by
  intro c s
  constructor
  · rw [bufPush, fifoPush_eq_tail_append]
  · intro hbuf
    rw [bufPush_buf]
    exact fifoPush_length c (by decide) hbuf

end Sys2Proof.Machine
end

section
/-! ### The pins one character write drives (40_display.md R125, R126) -/

namespace Sys2Proof.Machine

/-- A driven pin takes the driven level; every other pin keeps its level. -/
theorem Pins.level_drive (p q : Pin) (b : Level) (ps : Pins) :
    (ps.drive q b).level p = if p = q then some b else ps.level p := by
  cases p <;> cases q <;> rfl

/-- A pin the list does not name keeps its level. -/
theorem Pins.level_foldl_drive {p : Pin} {l : List (Pin × Level)} (h : ∀ b, (p, b) ∉ l) (ps : Pins) :
    (l.foldl (fun ps pb => ps.drive pb.1 pb.2) ps).level p = ps.level p := by
  induction l generalizing ps with
  | nil => rfl
  | cons qb l ih =>
    have hq : p ≠ qb.1 := fun heq => h qb.2 (heq ▸ List.mem_cons_self)
    rw [List.foldl_cons, ih (fun b hb => h b (List.mem_cons_of_mem _ hb)), Pins.level_drive, if_neg hq]

/-- The write enable a character write drives is its own display's. -/
theorem eq_of_writeEnable_mem_printPins {d e : Disp} {l : AddrLines} {c : Byte} {b : Level}
    (h : (writeEnable e, b) ∈ printPins d l c) : e = d := by
  cases d <;> cases e <;> simp [printPins, writeEnable] at h ⊢

/-- Whatever selects no write enable selects the same levels in both displays' writes. -/
theorem filter_printPins_eq {f : Pin × Level → Bool} (hf : ∀ d b, f (writeEnable d, b) = false) (d e : Disp)
    (l : AddrLines) (c : Byte) : (printPins d l c).filter f = (printPins e l c).filter f := by
  simp [printPins, List.filter_cons, hf]

/-- The pin levels PRINT_CHAR drives from `s`: those of the write at a legal position, none at an illegal one (R129). -/
def drivenPins (s : State) (d : Disp) (pos : BitVec 3) (c : Byte) : List (Pin × Level) :=
  s.launch.params.addrMap[pos.toNat]?.elim [] fun l => printPins d l c

/-- What a PRINT_CHAR that answers a next state did to the pins and to the trace, at every position. -/
theorem exec_printChar_next {d : Disp} {pos : BitVec 3} {c : Byte} {s t : State}
    (h : exec (.printChar d pos c) s = .next t) :
    t.pins = (drivenPins s d pos c).foldl (fun ps pb => ps.drive pb.1 pb.2) s.pins ∧
      t.trace = s.trace ++ (drivenPins s d pos c).map fun pb => Event.pin pb.1 pb.2 := by
  obtain ⟨-, rfl⟩ := runCommand_next h
  cases hl : s.launch.params.addrMap[pos.toNat]? with
  | some l => simp [printAt_ok (s := { s with result := none }) hl, drivePins_eq, drivenPins, hl]
  | none => simp [printAt, readPosition, drivenPins, raise, hl]

theorem eq_of_writeEnable_mem_drivenPins {s : State} {d e : Disp} {pos : BitVec 3} {c : Byte} {b : Level}
    (h : (writeEnable e, b) ∈ drivenPins s d pos c) : e = d := by
  cases hl : s.launch.params.addrMap[pos.toNat]? with
  | some l => exact eq_of_writeEnable_mem_printPins (by simpa [drivenPins, hl] using h)
  | none => simp [drivenPins, hl] at h

theorem filter_drivenPins_eq {f : Pin × Level → Bool} (hf : ∀ d b, f (writeEnable d, b) = false) (s : State)
    (d e : Disp) (pos : BitVec 3) (c : Byte) :
    (drivenPins s d pos c).filter f = (drivenPins s e pos c).filter f := by
  cases hl : s.launch.params.addrMap[pos.toNat]? with
  | some l => simpa [drivenPins, hl] using filter_printPins_eq hf d e l c
  | none => simp [drivenPins, hl]

/-- Settles O23: the events are those of `drivenPins`, which hold no write enable but the addressed one and agree on the
shared pins for both displays. -/
theorem printCharDrivesOneWriteEnable : Obligations.PrintCharDrivesOneWriteEnable := by
  intro d pos c s t ht
  obtain ⟨hpins, htrace⟩ := exec_printChar_next ht
  refine ⟨fun e he => ?_, _, htrace, fun e b he hmem => ?_, fun e u hu => ?_⟩
  · rw [hpins]
    exact Pins.level_foldl_drive (fun b hb => he (eq_of_writeEnable_mem_drivenPins hb)) s.pins
  · obtain ⟨⟨p, b'⟩, hdriven, heq⟩ := List.mem_map.mp hmem
    cases heq
    exact he (eq_of_writeEnable_mem_drivenPins hdriven)
  · refine ⟨_, (exec_printChar_next hu).2, ?_⟩
    rw [List.filter_map, List.filter_map]
    exact congrArg _ (filter_drivenPins_eq (by rintro (_ | _) b <;> simp [writeEnable]) s d e pos c)

end Sys2Proof.Machine
end

section
/-! ### The color index of the animation (43_animation.md R203) -/

namespace Sys2Proof.Machine

theorem Anim.advance_currentColor (len : Nat) (a : Anim) :
    (a.advance len).currentColor = (a.currentColor + 1) % len := rfl

/-- The advanced index is one of the palette's. -/
theorem Anim.advance_currentColor_lt {len : Nat} (hlen : 0 < len) (a : Anim) :
    (a.advance len).currentColor < len := by
  rw [Anim.advance_currentColor]
  exact Nat.mod_lt _ hlen

/-- Settles O56: the record is `Anim.advance` itself, the bound `Anim.advance_currentColor_lt`; the only index below
length 1 is 0. -/
theorem advanceWraps : Obligations.AdvanceWraps := by
  intro len a hlen
  exact ⟨rfl, a.advance_currentColor_lt hlen, Nat.lt_one_iff.mp (a.advance_currentColor_lt Nat.one_pos)⟩

end Sys2Proof.Machine
end

section
/-! ### The encoding (30_encoding.md R91, R100 to R108): rows, fields, and the decoder's three answers -/

namespace Sys2Proof

theorem Opcode.mem_all (o : Opcode) : o ∈ Opcode.all := by cases o <;> decide

/-- No two rows share an opcode (R100). -/
theorem Opcode.code_injective {o p : Opcode} (h : o.code = p.code) : o = p :=
  List.inj_on_of_nodup_map (by decide) o.mem_all p.mem_all h

/-! #### Fields of a word -/

/-- Adjacent fields join to one. -/
theorem field_append_field (w : Word) {lo hi m n : Nat} (h : hi = lo + n) :
    field hi m w ++ field lo n w = field lo (m + n) w :=
  BitVec.extractLsb'_append_extractLsb'_eq_extractLsb' h

theorem field_whole (w : Word) : field 0 64 w = w := BitVec.extractLsb'_eq_self

/-- In a word a row selects, a field the row fixes whole has the row's value (R101). -/
theorem Opcode.field_of_selects {o : Opcode} {w : Word} (h : o.selects w = true) (lo n : Nat) (v : BitVec n)
    (hm : field lo n o.mask = BitVec.allOnes n ∧ field lo n o.pattern = v) : field lo n w = v := by
  obtain ⟨hmask, hpattern⟩ := hm
  have hw : w &&& o.mask = o.pattern := eq_of_beq h
  rw [← hpattern, ← hw, field, field, BitVec.extractLsb'_and, show o.mask.extractLsb' lo n = _ from hmask,
    BitVec.and_allOnes]

theorem Opcode.code_of_selects {o : Opcode} {w : Word} (h : o.selects w = true) : o.code = field 56 8 w :=
  (Opcode.field_of_selects h 56 8 o.code (by cases o <;> decide)).symm

@[simp] theorem Disp.ofBit_toBit (d : Disp) : Disp.ofBit d.toBit = d := by cases d <;> rfl

@[simp] theorem Disp.toBit_ofBit (b : BitVec 1) : (Disp.ofBit b).toBit = b := by
  rcases BitVec.eq_zero_or_eq_one b with rfl | rfl <;> rfl

/-- A command's fields are cut from its word as they were laid out (R91). -/
theorem cut_encode (i : Instr) : i.opcode.cut (encode i) = i := by
  cases i <;>
    simp (disch := decide) only [Instr.opcode, Opcode.cut, encode, field, BitVec.extractLsb'_append_eq_right,
      BitVec.extractLsb'_append_eq_of_le, Nat.reduceSub, Disp.ofBit_toBit]

/-- A word its row selects is rebuilt from the fields cut from it: every other bit is fixed by the row (R91, R101). -/
theorem encode_cut {o : Opcode} {w : Word} (h : o.selects w = true) : encode (o.cut w) = w := by
  have fixed := fun lo n v hm => (Opcode.field_of_selects h lo n v hm).symm
  refine Eq.trans ?_ (field_whole w)
  cases o with
  | encode =>
    rw [Opcode.cut, encode, fixed 56 8 0x01#8 (by decide), fixed 8 48 0#48 (by decide)]
    simp (disch := rfl) only [field_append_field]
  | printChar =>
    rw [Opcode.cut, encode, fixed 56 8 0x02#8 (by decide), fixed 49 7 0#7 (by decide),
      fixed 43 5 0#5 (by decide), fixed 8 32 0#32 (by decide), Disp.toBit_ofBit]
    simp (disch := rfl) only [field_append_field]
  | clearDisplay =>
    rw [Opcode.cut, encode, fixed 56 8 0x03#8 (by decide), fixed 49 7 0#7 (by decide),
      fixed 0 48 0#48 (by decide), Disp.toBit_ofBit]
    simp (disch := rfl) only [field_append_field]
  | gamma =>
    rw [Opcode.cut, encode, fixed 56 8 0x10#8 (by decide), fixed 8 48 0#48 (by decide)]
    simp (disch := rfl) only [field_append_field]
  | setLed =>
    rw [Opcode.cut, encode, fixed 56 8 0x11#8 (by decide), fixed 48 4 0#4 (by decide),
      fixed 24 16 0#16 (by decide)]
    simp (disch := rfl) only [field_append_field]
  | ledInit =>
    rw [Opcode.cut, encode, fixed 56 8 0x12#8 (by decide), fixed 0 52 0#52 (by decide)]
    simp (disch := rfl) only [field_append_field]
  | ledSelftest =>
    rw [Opcode.cut, encode, fixed 56 8 0x13#8 (by decide), fixed 0 52 0#52 (by decide)]
    simp (disch := rfl) only [field_append_field]
  | lerp =>
    rw [Opcode.cut, encode, fixed 56 8 0x20#8 (by decide)]
    simp (disch := rfl) only [field_append_field]
  | begin =>
    rw [Opcode.cut, encode, fixed 56 8 0x30#8 (by decide), fixed 16 40 0#40 (by decide)]
    simp (disch := rfl) only [field_append_field]
  | step =>
    rw [Opcode.cut, encode, fixed 56 8 0x31#8 (by decide), fixed 0 56 0#56 (by decide)]
    simp (disch := rfl) only [field_append_field]
  | blit =>
    rw [Opcode.cut, encode, fixed 56 8 0x32#8 (by decide), fixed 0 56 0#56 (by decide)]
    simp (disch := rfl) only [field_append_field]

/-! #### Rows and the decoder -/

/-- A word has at most one row (R101). -/
theorem eq_of_selects {o p : Opcode} {w : Word} (ho : o.selects w = true) (hp : p.selects w = true) : o = p :=
  Opcode.code_injective ((Opcode.code_of_selects ho).trans (Opcode.code_of_selects hp).symm)

/-- The row of a command selects its word. -/
theorem selects_encode (i : Instr) : i.opcode.selects (encode i) = true := by
  have matched : encode i &&& i.opcode.mask = i.opcode.pattern := by
    cases i with
    | encodeChar char => exact Laws.OpcodeMatch.encodeChar char
    | printChar disp pos char => exact Laws.OpcodeMatch.printChar disp pos char
    | clearDisplay disp => exact Laws.OpcodeMatch.clearDisplay disp
    | gamma v => exact Laws.OpcodeMatch.gamma v
    | setLed chip base color => exact Laws.OpcodeMatch.setLed chip base color
    | ledInit chip => exact Laws.OpcodeMatch.ledInit chip
    | ledSelftest chip => exact Laws.OpcodeMatch.ledSelftest chip
    | lerp k ca cb => exact Laws.OpcodeMatch.lerp k ca cb
    | animBegin idx => exact Laws.OpcodeMatch.animBegin idx
    | animStep => exact Laws.OpcodeMatch.animStep
    | blit => exact Laws.OpcodeMatch.blit
  exact beq_iff_eq.mpr matched

/-- Everything the decoder can answer (R102). -/
theorem decode_cases (w : Word) :
    (∃ o : Opcode, o.selects w = true ∧ decode w = .ok (o.cut w)) ∨
    ((∀ o : Opcode, o.selects w ≠ true) ∧
      ((∃ o : Opcode, o.code = field 56 8 w) ∧ decode w = .error .reservedBits ∨
      (∀ o : Opcode, o.code ≠ field 56 8 w) ∧ decode w = .error .unassigned)) := by
  unfold decode
  cases hf : Opcode.all.find? (·.selects w) with
  | some o =>
    have ho := List.find?_some hf
    exact .inl ⟨o, ho, rfl⟩
  | none =>
    refine .inr ⟨fun o => List.find?_eq_none.mp hf o o.mem_all, ?_⟩
    by_cases hk : ∃ o : Opcode, o.code = field 56 8 w
    · obtain ⟨o, ho⟩ := hk
      refine .inl ⟨⟨o, ho⟩, if_pos ?_⟩
      exact List.any_eq_true.mpr ⟨o, o.mem_all, beq_iff_eq.mpr ho⟩
    · refine .inr ⟨fun o ho => hk ⟨o, ho⟩, if_neg fun hany => ?_⟩
      obtain ⟨o, -, ho⟩ := List.any_eq_true.mp hany
      exact hk ⟨o, eq_of_beq ho⟩

theorem decode_of_selects {o : Opcode} {w : Word} (h : o.selects w = true) : decode w = .ok (o.cut w) := by
  rcases decode_cases w with ⟨p, hp, hd⟩ | ⟨hnone, -⟩
  · rw [hd, eq_of_selects hp h]
  · exact absurd h (hnone o)

/-- Settles O1: the row of a command selects its word, and the fields are cut back as they were laid out. -/
theorem decodeOfEncode : Obligations.DecodeOfEncode := by
  intro i
  rw [decode_of_selects (selects_encode i), cut_encode]

/-- Settles O2: an accepted word has a row, and `encode_cut` rebuilds it. -/
theorem encodeOfDecode : Obligations.EncodeOfDecode := by
  intro w i hd
  rcases decode_cases w with ⟨o, ho, hok⟩ | ⟨-, ⟨-, herr⟩ | ⟨-, herr⟩⟩
  · rw [hok] at hd
    cases hd
    exact encode_cut ho
  · rw [herr] at hd
    cases hd
  · rw [herr] at hd
    cases hd

/-- Settles O3: the rows differ in their opcodes. -/
theorem rowsAreDisjoint : Obligations.RowsAreDisjoint := by
  intro w o p ho hp
  exact eq_of_selects ho hp

/-- Settles O4: by the three answers of the decoder. -/
theorem illegalWordsAreClassified : Obligations.IllegalWordsAreClassified := by
  intro w
  rcases decode_cases w with ⟨o, ho, hd⟩ | ⟨hnone, ⟨⟨o, ho⟩, hd⟩ | ⟨hcode, hd⟩⟩
  · have hcode := Opcode.code_of_selects ho
    have hrow : ∀ p : Opcode, p.code = field 56 8 w → w &&& p.mask = p.pattern := fun p hp => by
      rw [Opcode.code_injective (hp.trans hcode.symm)]
      exact eq_of_beq ho
    simp only [hd, reduceCtorEq, false_iff]
    exact ⟨fun h => h o hcode, fun ⟨p, hp, hne⟩ => hne (hrow p hp)⟩
  · have hne : w &&& o.mask ≠ o.pattern := fun h => hnone o (beq_iff_eq.mpr h)
    simp only [hd, Except.error.injEq, reduceCtorEq, false_iff, true_iff]
    exact ⟨fun h => h o ho, o, ho, hne⟩
  · simp only [hd, Except.error.injEq, reduceCtorEq, false_iff, true_iff]
    exact ⟨hcode, fun ⟨o, ho, _⟩ => hcode o ho⟩

/-- Settles O5: by running the decoder on the ten words. -/
theorem specWordsDecode : Obligations.SpecWordsDecode := by
  refine ⟨?_, ?_, ?_, ?_, ?_, ?_, ?_, ?_, ?_, ?_⟩ <;> decide

/-! #### Source lines (R108) -/

@[simp] theorem Disp.ofIndex_toBit (d : Disp) : Disp.ofIndex d.toBit.toNat = d := by cases d <;> rfl

theorem Disp.exists_toBit {n : Nat} (h : n < 2) : ∃ d : Disp, d.toBit.toNat = n := by
  obtain rfl | rfl : n = 0 ∨ n = 1 := by omega
  · exact ⟨.d0, rfl⟩
  · exact ⟨.d1, rfl⟩

theorem exists_toNat {w n : Nat} (h : n < 2 ^ w) : ∃ b : BitVec w, b.toNat = n :=
  ⟨BitVec.ofNat w n, by rw [BitVec.toNat_ofNat, Nat.mod_eq_of_lt h]⟩

theorem source_wellFormed (i : Instr) : i.source.wellFormed = true := by
  cases i <;> simp [Instr.source, SourceLine.wellFormed] <;> omega

theorem source_toWord (i : Instr) : i.source.toWord = encode i := by
  cases i <;> simp [Instr.source, SourceLine.toWord]

theorem source_assemble (i : Instr) : i.source.assemble = some (encode i) := by
  rw [SourceLine.assemble, if_pos (source_wellFormed i), source_toWord]

/-- A checked source line is `.word` or some command's own line. -/
theorem eq_source_of_wellFormed {l : SourceLine} (h : l.wellFormed = true) :
    (∃ n, n < 2 ^ 64 ∧ l = .word n) ∨ ∃ i : Instr, l = i.source := by
  cases l <;> simp only [SourceLine.wellFormed, Bool.and_eq_true, decide_eq_true_eq] at h
  case word w => exact .inl ⟨w, h, rfl⟩
  all_goals right
  case encodeChar char =>
    obtain ⟨char, rfl⟩ := exists_toNat h
    exact ⟨.encodeChar char, rfl⟩
  case printChar disp pos char =>
    obtain ⟨⟨hdisp, hpos⟩, hchar⟩ := h
    obtain ⟨disp, rfl⟩ := Disp.exists_toBit hdisp
    obtain ⟨pos, rfl⟩ := exists_toNat hpos
    obtain ⟨char, rfl⟩ := exists_toNat hchar
    exact ⟨.printChar disp pos char, rfl⟩
  case clearDisplay disp =>
    obtain ⟨disp, rfl⟩ := Disp.exists_toBit h
    exact ⟨.clearDisplay disp, rfl⟩
  case gamma v =>
    obtain ⟨v, rfl⟩ := exists_toNat h
    exact ⟨.gamma v, rfl⟩
  case setLed chip base color =>
    obtain ⟨⟨hchip, hbase⟩, hcolor⟩ := h
    obtain ⟨chip, rfl⟩ := exists_toNat hchip
    obtain ⟨base, rfl⟩ := exists_toNat hbase
    obtain ⟨color, rfl⟩ := exists_toNat hcolor
    exact ⟨.setLed chip base color, rfl⟩
  case ledInit chip =>
    obtain ⟨chip, rfl⟩ := exists_toNat h
    exact ⟨.ledInit chip, rfl⟩
  case ledSelftest chip =>
    obtain ⟨chip, rfl⟩ := exists_toNat h
    exact ⟨.ledSelftest chip, rfl⟩
  case lerp ca cb k =>
    obtain ⟨⟨hca, hcb⟩, hk⟩ := h
    obtain ⟨ca, rfl⟩ := exists_toNat hca
    obtain ⟨cb, rfl⟩ := exists_toNat hcb
    obtain ⟨k, rfl⟩ := exists_toNat hk
    exact ⟨.lerp k ca cb, rfl⟩
  case animBegin idx =>
    obtain ⟨idx, rfl⟩ := exists_toNat h
    exact ⟨.animBegin idx, rfl⟩
  case animStep => exact ⟨.animStep, rfl⟩
  case blit => exact ⟨.blit, rfl⟩

/-- Settles O6: a line that assembles is checked, so it is `.word` or a command's own line. -/
theorem assemblerAgreesWithEncoding : Obligations.AssemblerAgreesWithEncoding := by
  refine ⟨source_assemble, fun l w h => ?_⟩
  obtain ⟨hwf, rfl⟩ : l.wellFormed = true ∧ l.toWord = w := by simpa [SourceLine.assemble] using h
  rcases eq_source_of_wellFormed hwf with ⟨n, hn, rfl⟩ | ⟨i, rfl⟩
  · exact .inl ⟨n, hn, rfl, rfl⟩
  · exact .inr ⟨i, rfl, source_toWord i⟩
end Sys2Proof
end

section
/-! ### A command as one body, and the step (10_state.md R21, R41; 60_exceptions.md R250) -/

namespace Sys2Proof.Machine

/-- What a command does once the result port is cleared: `exec` runs it between the two ends `runCommand` fixes. -/
def commandBody (i : Instr) (s : State) : Flow Unit :=
  match i with
  | .encodeChar char => .ok () (s.answer (.pattern (enc char)))
  | .printChar disp pos char => printAt disp char pos s
  | .clearDisplay disp => Flow.each (printAt disp 0x20) clearPositions s
  | .gamma v => .ok () (s.answer (.intensity (lut s.launch.gamma v)))
  | .setLed chip base color =>
    (readChip chip s).bind fun c s =>
    (setLed c.addr base.toNat color s).bind fun r s =>
    .ok () (s.answer (.register (BitVec.ofNat 8 r)))
  | .ledInit chip => (readChip chip s).bind initChip
  | .ledSelftest chip => (readChip chip s).bind selfTestChip
  | .lerp k ca cb => .ok () (s.answer (.triad (blend s.launch.params.lerpRound ca cb k.toNat)))
  | .animBegin idx =>
    match s.launch.palettes.toList[idx.toNat]? with
    | none => raise (.badPalette idx) s
    | some p => renderBegin p.colors.head { s with anim := some (.start idx.toNat), buf := [] }
  | .animStep =>
    match s.anim with
    | none => raise .noPalette s
    | some a =>
      (romRead a.pal s).bind fun p s => (stepStyle p a s).bind fun _ s => blitBuffer s
  | .blit => blitBuffer s

theorem exec_eq_runCommand (i : Instr) (s : State) : exec i s = runCommand s (commandBody i) := by
  cases i <;> rfl

theorem exec_running {s : State} (h : s.fault = none) (i : Instr) :
    exec i s = .next (commandBody i { s with result := none }).state := by
  rw [exec_eq_runCommand, runCommand_running h]

theorem exec_faulted {s : State} {f : Fault} (h : s.fault = some f) (i : Instr) : exec i s = .fault f := by
  rw [exec_eq_runCommand, runCommand_faulted h]

theorem exec_next {i : Instr} {s t : State} (h : exec i s = .next t) :
    s.fault = none ∧ t = (commandBody i { s with result := none }).state :=
  runCommand_next ((exec_eq_runCommand i s).symm.trans h)

/-- A property of the state the body ends in, stopped or not, is one of every next state the command answers. -/
theorem exec_within {R : State → Prop} {i : Instr} {s t : State} (h : exec i s = .next t)
    (hR : (commandBody i { s with result := none }).Within R) : R t := by
  obtain ⟨-, rfl⟩ := exec_next h
  exact hR

/-- Settles O9: the step and `runCommand` both look at the fault first. -/
theorem nothingRunsAfterAFault : Obligations.NothingRunsAfterAFault := by
  intro s f h
  exact ⟨by rw [step, h], exec_faulted h⟩

/-- Settles O10: the next state is the one its body ends in. -/
theorem everyCommandAnswers : Obligations.EveryCommandAnswers := by
  intro i s h
  exact ⟨_, exec_running h i⟩

/-! #### The step, one lemma per act of the host -/

theorem step_command {s : State} {w : Word} {rest : List HostAct} {i : Instr} (hf : s.fault = none)
    (hc : s.commands = .command w :: rest) (hd : decode w = .ok i) : step s = exec i (s.takeCommand rest) := by
  simp only [step, hf, hc, hd]

theorem step_illegal {s : State} {w : Word} {rest : List HostAct} {why : Illegal} (hf : s.fault = none)
    (hc : s.commands = .command w :: rest) (hd : decode w = .error why) : step s = illegalWord w why s := by
  simp only [step, hf, hc, hd]

theorem step_configure {s : State} {c : Cfg} {rest : List HostAct} (hf : s.fault = none)
    (hc : s.commands = .configure c :: rest) : step s = .next (s.configure c rest) := by
  simp only [step, hf, hc]

theorem step_idle {s : State} (hf : s.fault = none) (hc : s.commands = []) : step s = .next s := by
  simp only [step, hf, hc]

/-- Settles O7: `takeCommand` is the list moved on by one. -/
theorem stepRunsTheDecodedCommand : Obligations.StepRunsTheDecodedCommand :=
  fun _ _ _ _ hf hc hd => step_command hf hc hd

/-- Settles O8: the illegal word's only effect is the raised fault. -/
theorem illegalWordChangesOnlyTheFault : Obligations.IllegalWordChangesOnlyTheFault :=
  fun _ _ _ _ hf hc hd => step_illegal hf hc hd

/-- Settles O11: the two branches of the step that run no command. -/
theorem hostActsBetweenCommands : Obligations.HostActsBetweenCommands :=
  fun _ _ _ hf => ⟨step_configure hf, step_idle hf⟩

/-- Everything a step that answers a next state can have done: waited, stored a configuration, recorded an illegal
word, or run a command after taking its word. -/
theorem step_cases {s t : State} (h : step s = .next t) :
    s.fault = none ∧
      (t = s ∨ (∃ c rest, t = s.configure c rest) ∨
        (∃ w why, t = { s with fault := some (.illegalCommand w why) }) ∨
        ∃ i rest, exec i (s.takeCommand rest) = .next t) := by
  cases hf : s.fault with
  | some f =>
    rw [(nothingRunsAfterAFault s f hf).1] at h
    cases h
  | none =>
    refine ⟨rfl, ?_⟩
    obtain ⟨acts, hc⟩ : ∃ acts, s.commands = acts := ⟨_, rfl⟩
    cases acts with
    | nil =>
      rw [step_idle hf hc] at h
      cases h
      exact .inl rfl
    | cons act rest =>
      cases act with
      | configure c =>
        rw [step_configure hf hc] at h
        cases h
        exact .inr (.inl ⟨c, rest, rfl⟩)
      | command w =>
        cases hd : decode w with
        | error why =>
          rw [step_illegal hf hc hd] at h
          cases h
          exact .inr (.inr (.inl ⟨w, why, rfl⟩))
        | ok i =>
          rw [step_command hf hc hd] at h
          exact .inr (.inr (.inr ⟨i, rest, h⟩))

end Sys2Proof.Machine
end

section
/-! ### What every command leaves unchanged, completed or stopped -/

namespace Sys2Proof.Machine

/-- `t` has the inputs of `s`; its result is that of `s` unless `P`; the events added to its trace hold transactions to
chips in `A` only. -/
structure Keeps (P : Prop) (A : BusAddr → Prop) (s t : State) : Prop where
  inputs : s.SameInputs t
  result : ¬ P → t.result = s.result
  trace : ∃ es, t.trace = s.trace ++ es ∧ ∀ x : Txn, Event.txn x ∈ es → A x.chip

theorem Keeps.refl (P : Prop) (A : BusAddr → Prop) (s : State) : Keeps P A s s :=
  ⟨⟨rfl, rfl, rfl, rfl⟩, fun _ => rfl, [], by simp⟩

theorem Keeps.trans {P : Prop} {A : BusAddr → Prop} {s t u : State} (h : Keeps P A s t) (k : Keeps P A t u) :
    Keeps P A s u where
  inputs := ⟨k.inputs.launch.trans h.inputs.launch, k.inputs.cfg.trans h.inputs.cfg,
    k.inputs.commands.trans h.inputs.commands, k.inputs.index.trans h.inputs.index⟩
  result := fun hp => (k.result hp).trans (h.result hp)
  trace := by
    obtain ⟨es, he, ha⟩ := h.trace
    obtain ⟨fs, hf, hb⟩ := k.trace
    exact ⟨es ++ fs, by rw [hf, he, List.append_assoc], fun x hx => (List.mem_append.mp hx).elim (ha x) (hb x)⟩

theorem Keeps.raise (P : Prop) (A : BusAddr → Prop) (s : State) (f : Fault) :
    Keeps P A s { s with fault := some f } := ⟨⟨rfl, rfl, rfl, rfl⟩, fun _ => rfl, [], by simp⟩

/-- `Keeps` reads neither the animation fields nor the buffer. -/
theorem Keeps.ofFields {P : Prop} {A : BusAddr → Prop} {s t : State} {a : Option Anim} {b : List Color}
    (h : Keeps P A { s with anim := a, buf := b } t) : Keeps P A s t :=
  ⟨⟨h.inputs.launch, h.inputs.cfg, h.inputs.commands, h.inputs.index⟩, h.result, h.trace⟩

theorem Sends.keeps {A : BusAddr → Prop} {s t : State} (h : Sends A s t) (P : Prop) : Keeps P A s t where
  inputs := ⟨h.launch, h.cfg, h.commands, h.index⟩
  result := fun _ => h.result
  trace := by
    obtain ⟨es, he, ha⟩ := h.trace
    refine ⟨es, he, fun x hx => ?_⟩
    obtain ⟨ms, hms⟩ | ⟨y, hy, hA⟩ := ha _ hx
    · cases hms
    · cases hy
      exact hA

theorem Draws.keeps {s t : State} (h : Draws s t) (P : Prop) (A : BusAddr → Prop) : Keeps P A s t where
  inputs := by constructor <;> rw [h.eq]
  result := fun _ => by rw [h.eq]
  trace := by
    obtain ⟨es, he, ha⟩ := h.trace
    refine ⟨es, he, fun x hx => ?_⟩
    obtain ⟨p, b, hp⟩ := ha _ hx
    cases hp

/-- From `s`, whose animation fields are `a`, to `u` a style's branch of STEP ran (R206): it changed at most the fields
but the active palette, the buffer, the oracle by one draw, the trace by diagnostics, and the fault. -/
structure Restyles (a : Anim) (s u : State) : Prop where
  inputs : s.SameInputs u
  pins : u.pins = s.pins
  result : u.result = s.result
  answers : u.answers = s.answers
  pal : u.anim.map Anim.pal = some a.pal
  oracle : u.drawPos = s.drawPos ∧ u.draws = s.draws ∨ u.drawPos = s.drawPos + 1 ∧ u.draws = s.draws.tail
  trace : ∃ es, u.trace = s.trace ++ es ∧ ∀ e ∈ es, ∃ tag, e = .diag tag

theorem Restyles.raise {a : Anim} {s : State} (ha : s.anim = some a) (f : Fault) :
    Restyles a s { s with fault := some f } :=
  ⟨⟨rfl, rfl, rfl, rfl⟩, rfl, rfl, rfl, by rw [ha]; rfl, .inl ⟨rfl, rfl⟩, [], by simp⟩

theorem Anim.settle_pal (len : Nat) (a : Anim) : (a.settle len).pal = a.pal := by
  unfold Anim.settle
  split <;> rfl

theorem Anim.cycled_pal (p : Palette) (d : Draw) (a : Anim) : (a.cycled p d).pal = a.pal := by
  unfold Anim.cycled
  split <;> rfl

theorem stepStyle_restyles {s : State} {a : Anim} (ha : s.anim = some a) (p : Palette) :
    (stepStyle p a s).Within (Restyles a s) := by
  rcases stepStyle_cases p a s with ⟨-, f, h⟩ | ⟨-, -, -, f, h⟩ | ⟨-, -, f, h⟩ | ⟨tag, -, h⟩ | ⟨-, i, h | h⟩ <;> rw [h]
  · rw [pushFrame_eq]
    exact ⟨⟨rfl, rfl, rfl, rfl⟩, rfl, rfl, rfl, rfl, .inl ⟨rfl, rfl⟩, [], by simp⟩
  · rw [pushFrame_eq]
    exact ⟨⟨rfl, rfl, rfl, rfl⟩, rfl, rfl, rfl, congrArg some (Anim.settle_pal _ _), .inl ⟨rfl, rfl⟩, [], by simp⟩
  · rw [pushFrame_eq, draw_state]
    exact ⟨⟨rfl, rfl, rfl, rfl⟩, rfl, rfl, rfl, congrArg some (Anim.cycled_pal _ _ _), .inr ⟨rfl, rfl⟩, [], by simp⟩
  · exact ⟨⟨rfl, rfl, rfl, rfl⟩, rfl, rfl, rfl, by rw [Flow.state_ok, emitDiag_anim, ha]; rfl, .inl ⟨rfl, rfl⟩,
      [.diag tag], rfl, by simp⟩
  · exact .raise ha _
  · rw [draw_state]
    exact ⟨⟨rfl, rfl, rfl, rfl⟩, rfl, rfl, rfl, by rw [raise_state, ha]; rfl, .inr ⟨rfl, rfl⟩, [], by simp⟩

theorem Restyles.keeps {a : Anim} {s u : State} (h : Restyles a s u) (P : Prop) (A : BusAddr → Prop) :
    Keeps P A s u where
  inputs := h.inputs
  result := fun _ => h.result
  trace := by
    obtain ⟨es, he, ha⟩ := h.trace
    refine ⟨es, he, fun x hx => ?_⟩
    obtain ⟨tag, ht⟩ := ha _ hx
    cases ht

/-- The active list is read off the inputs. -/
theorem State.SameInputs.isActive {s t : State} (h : s.SameInputs t) : t.IsActive = s.IsActive := by
  funext x
  simp only [State.IsActive, State.activeChips, h.cfg, h.launch]

theorem mem_isActive {s : State} : ∀ c ∈ s.activeChips, s.IsActive c.addr := fun c hc => ⟨c, hc, rfl⟩

theorem animStep_idle {s : State} (ha : s.anim = none) : commandBody .animStep s = raise .noPalette s := by
  simp only [commandBody, ha]

/-- STEP of an active palette: the style's branch, then a Blit of what is in the buffer (R206). -/
theorem animStep_active {s : State} {a : Anim} {p : Palette} (ha : s.anim = some a)
    (hp : s.launch.palettes.toList[a.pal]? = some p) :
    commandBody .animStep s = (stepStyle p a s).bind fun _ s => blitBuffer s := by
  simp only [commandBody, ha, romRead, hp, Flow.bind_ok]

theorem animStep_hole {s : State} {a : Anim} (ha : s.anim = some a)
    (hp : s.launch.palettes.toList[a.pal]? = none) : commandBody .animStep s = raise (.romHole a.pal) s := by
  simp only [commandBody, ha, romRead, hp, raise_bind]

/-- Whatever stops it, a STEP restyles and then at most sends. -/
theorem animStep_within {s : State} {a : Anim} (ha : s.anim = some a) :
    (commandBody .animStep s).Within fun t =>
      ∃ u m, Restyles a s u ∧ Sends s.IsActive { u with buf := u.buf.drop m } t := by
  cases hp : s.launch.palettes.toList[a.pal]? with
  | none =>
    rw [animStep_hole ha hp]
    exact ⟨_, 0, .raise ha _, Sends.refl _ _⟩
  | some p =>
    rw [animStep_active ha hp]
    have styled := stepStyle_restyles ha p
    cases hx : stepStyle p a s with
    | raised u =>
      rw [hx] at styled
      exact ⟨u, 0, styled, Sends.refl _ _⟩
    | ok _ u =>
      rw [hx] at styled
      have styled : Restyles a s u := styled
      obtain ⟨m, hm⟩ := blitBuffer_sends u mem_isActive
      rw [styled.inputs.isActive] at hm
      exact ⟨u, m, styled, hm⟩

/-- One operation on the indexed chip, or `NoChip`. -/
theorem onChip_sends {α : Type} {f : Chip → State → Flow α} (chip : BitVec 4) (s : State)
    (hf : ∀ c, s.IsActive c.addr → (f c s).Within (Sends s.IsActive s)) :
    ((readChip chip s).bind f).Within (Sends s.IsActive s) := by
  rcases readChip_cases chip s with ⟨c, hc, -, h⟩ | ⟨-, h⟩ <;> rw [h]
  · exact hf c (mem_isActive c hc)
  · exact (Sends.refl _ s).raise (by intro i hi; cases hi)

/-- The channel group of a SET_LED (R157). -/
def indexedGroup (chip : BitVec 4) (base : Byte) (color : Color) (s : State) : Flow Nat :=
  (readChip chip s).bind fun c s => setLed c.addr base.toNat color s

theorem indexedGroup_sends (chip : BitVec 4) (base : Byte) (color : Color) (s : State) :
    (indexedGroup chip base color s).Within (Sends s.IsActive s) :=
  onChip_sends chip s fun c hc => setLed_sends c.addr hc base.toNat color s

theorem setLed_body (chip : BitVec 4) (base : Byte) (color : Color) (s : State) :
    commandBody (.setLed chip base color) s =
      (indexedGroup chip base color s).bind fun r s => .ok () (s.answer (.register (BitVec.ofNat 8 r))) :=
  (Flow.bind_assoc _ _ _).symm

/-- SET_LED: a channel group, then perhaps its register in the result port. -/
theorem setLed_within (chip : BitVec 4) (base : Byte) (color : Color) (s : State) :
    (commandBody (.setLed chip base color) s).Within fun t =>
      ∃ u, Sends s.IsActive s u ∧ (t = u ∨ ∃ v, t = u.answer v) := by
  have sent := indexedGroup_sends chip base color s
  rw [setLed_body]
  cases hx : indexedGroup chip base color s with
  | raised u =>
    rw [hx] at sent
    exact ⟨u, sent, .inl rfl⟩
  | ok r u =>
    rw [hx] at sent
    exact ⟨u, sent, .inr ⟨_, rfl⟩⟩

theorem ledInit_sends (chip : BitVec 4) (s : State) :
    (commandBody (.ledInit chip) s).Within (Sends s.IsActive s) :=
  onChip_sends chip s fun c hc => initChip_sends c hc s

theorem ledSelftest_sends (chip : BitVec 4) (s : State) :
    (commandBody (.ledSelftest chip) s).Within (Sends s.IsActive s) :=
  onChip_sends chip s fun c hc => selfTestChip_sends c hc s

/-- BEGIN of a palette in the list: the fields written, then the frame and the blanking (R204). -/
theorem animBegin_ok {idx : BitVec 16} {s : State} {p : Palette}
    (hp : s.launch.palettes.toList[idx.toNat]? = some p) :
    commandBody (.animBegin idx) s =
      renderBegin p.colors.head { s with anim := some (.start idx.toNat), buf := [] } := by
  unfold commandBody
  simp only [hp]

/-- A BEGIN that has its palette leaves at most 6 entries. -/
theorem animBegin_within {idx : BitVec 16} {s : State} {p : Palette}
    (hp : s.launch.palettes.toList[idx.toNat]? = some p) :
    (commandBody (.animBegin idx) s).Within fun t =>
      ∃ b, b.length ≤ Config.bufCap ∧ Sends s.IsActive { s with anim := some (.start idx.toNat), buf := b } t := by
  rw [animBegin_ok hp]
  exact renderBegin_sends s.IsActive p.colors.head
    (s := { s with anim := some (.start idx.toNat), buf := [] }) mem_isActive (Nat.zero_le _)

theorem animBegin_bad {idx : BitVec 16} {s : State} (hp : s.launch.palettes.toList[idx.toNat]? = none) :
    commandBody (.animBegin idx) s = raise (.badPalette idx) s := by
  unfold commandBody
  simp only [hp]

/-- The commands that may fill the result port (10_state.md R41). -/
def SetsResult (i : Instr) : Prop :=
  (∃ c, i = .encodeChar c) ∨ (∃ v, i = .gamma v) ∨ (∃ k a b, i = .lerp k a b) ∨ ∃ c b x, i = .setLed c b x

/-- Answering a value is within `Keeps` of a command that may. -/
theorem State.answer_keeps {P : Prop} (hP : P) (A : BusAddr → Prop) (s : State) (v : Value) :
    Keeps P A s (s.answer v) := ⟨⟨rfl, rfl, rfl, rfl⟩, fun h => absurd hP h, [], by simp⟩

theorem commandBody_keeps (i : Instr) (s : State) :
    (commandBody i s).Within (Keeps (SetsResult i) s.IsActive s) := by
  cases i with
  | encodeChar c => exact State.answer_keeps (.inl ⟨c, rfl⟩) _ _ _
  | printChar d pos c => exact (printAt_draws d c pos s).keeps _ _
  | clearDisplay d => exact (clear_draws d s).keeps _ _
  | gamma v => exact State.answer_keeps (.inr (.inl ⟨v, rfl⟩)) _ _ _
  | lerp k a b => exact State.answer_keeps (.inr (.inr (.inl ⟨k, a, b, rfl⟩))) _ _ _
  | ledInit chip => exact (ledInit_sends chip s).keeps _
  | ledSelftest chip => exact (ledSelftest_sends chip s).keeps _
  | setLed chip base color =>
    obtain ⟨u, sent, h | ⟨v, h⟩⟩ := setLed_within chip base color s <;> rw [Flow.Within, h]
    · exact sent.keeps _
    · exact (sent.keeps _).trans (State.answer_keeps (.inr (.inr (.inr ⟨chip, base, color, rfl⟩))) _ _ _)
  | blit =>
    obtain ⟨m, sent⟩ := blitBuffer_sends s mem_isActive
    exact (sent.keeps _).ofFields
  | animStep =>
    cases ha : s.anim with
    | none =>
      rw [animStep_idle ha]
      exact .raise _ _ _ _
    | some a =>
      obtain ⟨u, m, styled, sent⟩ := animStep_within ha
      exact (styled.keeps _ _).trans (sent.keeps _).ofFields
  | animBegin idx =>
    cases hp : s.launch.palettes.toList[idx.toNat]? with
    | none =>
      rw [animBegin_bad hp]
      exact .raise _ _ _ _
    | some p =>
      obtain ⟨b, -, sent⟩ := animBegin_within hp
      exact (sent.keeps _).ofFields

theorem commandBody_result {i : Instr} {s : State} (hi : ¬ SetsResult i) (hr : s.result = none) :
    (commandBody i s).state.result = none := ((commandBody_keeps i s).result hi).trans hr

/-- What every command leaves unchanged, in terms of the state it was issued in. -/
theorem exec_keeps {i : Instr} {s t : State} (h : exec i s = .next t) :
    Keeps (SetsResult i) s.IsActive { s with result := none } t :=
  exec_within h (commandBody_keeps i { s with result := none })

/-- Settles O36: whatever `exec_keeps` says of the trace. -/
theorem transactionsNameActiveChips : Obligations.TransactionsNameActiveChips :=
  fun _ _ _ h => (exec_keeps h).trace

/-- Settles O12: `exec_keeps`; a command that is none of the four leaves the cleared result port. -/
theorem commandsKeepInputs : Obligations.CommandsKeepInputs := by
  intro i s t h
  obtain ⟨⟨hlaunch, hcfg, hcommands, hindex⟩, hresult, -⟩ := exec_keeps h
  exact ⟨hlaunch, hcfg, hcommands, hindex, fun hr => by_contra fun hi => hr (hresult hi)⟩

/-- Settles O17: a step either leaves the trace or runs a command. -/
theorem traceOnlyGrows : Obligations.TraceOnlyGrows := by
  intro s t h
  obtain ⟨-, rfl | ⟨c, rest, rfl⟩ | ⟨w, why, rfl⟩ | ⟨i, rest, hi⟩⟩ := step_cases h
  · exact ⟨⟨[], by simp⟩, rfl⟩
  · exact ⟨⟨[], by simp⟩, rfl⟩
  · exact ⟨⟨[], by simp⟩, rfl⟩
  · obtain ⟨inputs, -, es, he, -⟩ := exec_keeps hi
    exact ⟨⟨es, he⟩, inputs.launch⟩

end Sys2Proof.Machine
end

section
/-! ### Frames of the display, LED and animation commands -/

namespace Sys2Proof.Machine

/-- Settles O24: both commands only draw. -/
theorem displayCommandsFrame : Obligations.DisplayCommandsFrame := by
  rintro i s t hi h
  have drawn : Draws { s with result := none } t := by
    rcases hi with ⟨d, pos, c, rfl⟩ | ⟨d, rfl⟩
    · exact exec_within h (printAt_draws d c pos _)
    · exact exec_within h (clear_draws d _)
  exact ⟨drawn.eq, drawn.trace⟩

theorem Sends.eq {A : BusAddr → Prop} {s t : State} (h : Sends A s t) :
    t = { s with trace := t.trace, result := t.result, fault := t.fault, answers := t.answers } := by
  obtain ⟨hpins, hanim, hresult, hcfg, hlaunch, hdraws, hdrawPos, hcommands, hindex, hbuf⟩ := h
  cases t
  cases hpins; cases hanim; cases hresult; cases hcfg; cases hlaunch
  cases hdraws; cases hdrawPos; cases hcommands; cases hindex; cases hbuf
  rfl

/-- Settles O35: each is within `Sends`, SET_LED up to the register it answers. -/
theorem ledCommandsFrame : Obligations.LedCommandsFrame := by
  intro i s t hi h
  obtain ⟨u, sent, ht⟩ : ∃ u, Sends s.IsActive { s with result := none } u ∧ (t = u ∨ ∃ v, t = u.answer v) := by
    rcases hi with ⟨c, b, x, rfl⟩ | ⟨c, rfl⟩ | ⟨c, rfl⟩
    · exact exec_within h (setLed_within c b x { s with result := none })
    · exact ⟨t, exec_within h (ledInit_sends c { s with result := none }), .inl rfl⟩
    · exact ⟨t, exec_within h (ledSelftest_sends c { s with result := none }), .inl rfl⟩
  have trace : ∃ es, u.trace = s.trace ++ es ∧ ∀ e ∈ es, (∃ x, e = .txn x) ∨ ∃ ms, e = .delay ms := by
    obtain ⟨es, he, ha⟩ := sent.trace
    refine ⟨es, he, fun e hin => ?_⟩
    rcases ha e hin with ⟨ms, rfl⟩ | ⟨x, rfl, -⟩
    · exact .inr ⟨ms, rfl⟩
    · exact .inl ⟨x, rfl⟩
  rcases ht with rfl | ⟨v, rfl⟩
  · exact ⟨sent.eq, sent.answers, trace⟩
  · refine ⟨?_, sent.answers, trace⟩
    conv_lhs => rw [sent.eq]
    rfl

/-- From `s` to `t` no pin was driven, the result port stayed and answers were used from the front only. -/
structure Animates (s t : State) : Prop where
  pins : t.pins = s.pins
  result : t.result = s.result
  answers : ∃ n, t.answers = s.answers.drop n
  trace : ∃ es, t.trace = s.trace ++ es ∧ ∀ p b, Event.pin p b ∉ es

theorem Animates.trans {s t u : State} (h : Animates s t) (k : Animates t u) : Animates s u where
  pins := k.pins.trans h.pins
  result := k.result.trans h.result
  answers := by
    obtain ⟨m, hm⟩ := h.answers
    obtain ⟨n, hn⟩ := k.answers
    exact ⟨m + n, by rw [hn, hm, List.drop_drop]⟩
  trace := by
    obtain ⟨es, he, ha⟩ := h.trace
    obtain ⟨fs, hf, hb⟩ := k.trace
    exact ⟨es ++ fs, by rw [hf, he, List.append_assoc],
      fun p b hin => (List.mem_append.mp hin).elim (ha p b) (hb p b)⟩

theorem Sends.animates {A : BusAddr → Prop} {s t : State} {a : Option Anim} {b : List Color}
    (h : Sends A { s with anim := a, buf := b } t) : Animates s t where
  pins := h.pins
  result := h.result
  answers := h.answers
  trace := by
    obtain ⟨es, he, ha⟩ := h.trace
    refine ⟨es, he, fun p b hin => ?_⟩
    rcases ha _ hin with ⟨ms, hms⟩ | ⟨x, hx, -⟩
    · cases hms
    · cases hx

theorem Restyles.animates {a : Anim} {s u : State} (h : Restyles a s u) : Animates s u where
  pins := h.pins
  result := h.result
  answers := ⟨0, by rw [h.answers, List.drop_zero]⟩
  trace := by
    obtain ⟨es, he, ha⟩ := h.trace
    refine ⟨es, he, fun p b hin => ?_⟩
    obtain ⟨tag, ht⟩ := ha _ hin
    cases ht

theorem Animates.raise (s : State) (f : Fault) : Animates s { s with fault := some f } :=
  ⟨rfl, rfl, ⟨0, rfl⟩, [], by simp⟩

theorem blit_animates (s : State) : (commandBody .blit s).Within fun t =>
    Animates s t ∧ (t.draws = s.draws ∧ t.drawPos = s.drawPos) ∧ t.anim = s.anim := by
  obtain ⟨m, sent⟩ := blitBuffer_sends s mem_isActive
  exact ⟨sent.animates, ⟨sent.draws, sent.drawPos⟩, sent.anim⟩

theorem animBegin_animates (idx : BitVec 16) (s : State) : (commandBody (.animBegin idx) s).Within fun t =>
    Animates s t ∧ t.draws = s.draws ∧ t.drawPos = s.drawPos := by
  cases hp : s.launch.palettes.toList[idx.toNat]? with
  | none =>
    rw [animBegin_bad hp]
    exact ⟨.raise _ _, rfl, rfl⟩
  | some p =>
    obtain ⟨b, -, sent⟩ := animBegin_within hp
    exact ⟨sent.animates, sent.draws, sent.drawPos⟩

theorem animStep_animates (s : State) : (commandBody .animStep s).Within fun t =>
    Animates s t ∧ t.anim.map Anim.pal = s.anim.map Anim.pal ∧
      (t.drawPos = s.drawPos ∧ t.draws = s.draws ∨ t.drawPos = s.drawPos + 1 ∧ t.draws = s.draws.tail) := by
  cases ha : s.anim with
  | none =>
    rw [animStep_idle ha]
    exact ⟨.raise _ _, by rw [raise_state, ha], .inl ⟨rfl, rfl⟩⟩
  | some a =>
    obtain ⟨u, m, styled, sent⟩ := animStep_within ha
    refine ⟨styled.animates.trans sent.animates, by rw [sent.anim]; exact styled.pal, ?_⟩
    rw [sent.drawPos, sent.draws]
    exact styled.oracle

/-- Settles O55: BEGIN and BLIT only send after the fields and the buffer are replaced, STEP restyles and then sends. -/
theorem animationCommandsFrame : Obligations.AnimationCommandsFrame := by
  rintro i s t (⟨idx, rfl⟩ | rfl | rfl) h
  · obtain ⟨⟨hpins, hresult, hanswers, htrace⟩, horacle⟩ := exec_within h (animBegin_animates idx _)
    exact ⟨hpins, hresult, hanswers, htrace, fun _ => horacle, nofun, nofun⟩
  · obtain ⟨⟨hpins, hresult, hanswers, htrace⟩, hstep⟩ := exec_within h (animStep_animates _)
    exact ⟨hpins, hresult, hanswers, htrace, fun hi => absurd rfl hi, nofun, fun _ => hstep⟩
  · obtain ⟨⟨hpins, hresult, hanswers, htrace⟩, horacle, hanim⟩ := exec_within h (blit_animates _)
    exact ⟨hpins, hresult, hanswers, htrace, fun _ => horacle, fun _ => hanim, nofun⟩

end Sys2Proof.Machine
end

section
/-! ### The invariant (10_state.md R28 to R32, R37; 43_animation.md R212) -/

namespace Sys2Proof.Machine

/-! #### The animation fields fit the palette after every write of them -/

theorem Anim.start_fits {l : Launch} {p : Palette} {i : Nat} (hp : l.palettes.toList[i]? = some p) :
    (Anim.start i).Fits l :=
  ⟨⟨p, hp, NonEmpty.size_pos _⟩, Nat.zero_le _, rfl, .nil, .inl rfl, nofun⟩

theorem Anim.Fits.advance {l : Launch} {p : Palette} {a : Anim} (h : a.Fits l)
    (hp : l.palettes.toList[a.pal]? = some p) : (a.advance p.colors.size).Fits l :=
  ⟨⟨p, hp, Nat.mod_lt _ (NonEmpty.size_pos _)⟩, h.2⟩

theorem Anim.Fits.newCycle {l : Launch} {a : Anim} (h : a.Fits l) (d : Draw) : (a.newCycle d).Fits l := by
  obtain ⟨hcolor, hmax, hstep, -⟩ := h
  obtain ⟨h12, h23⟩ := d.ascending
  refine ⟨hcolor, hmax, hstep, ?_, .inr rfl, fun _ => rfl⟩
  simp [Anim.newCycle, Draw.groups, h12, h23, h12.trans h23]

theorem Anim.Fits.cycled {l : Launch} {p : Palette} {a : Anim} (h : a.Fits l)
    (hp : l.palettes.toList[a.pal]? = some p) (d : Draw) : (a.cycled p d).Fits l := by
  unfold Anim.cycled
  split
  · exact h.newCycle d
  · exact (h.newCycle d).advance hp

theorem Anim.Fits.progress {l : Launch} {a : Anim} (h : a.Fits l) : a.progress.Fits l := by
  obtain ⟨hcolor, hmax, hstep, hactive⟩ := h
  refine ⟨hcolor, Nat.min_le_right _ _, ?_, hactive⟩
  show min (a.lastLerp + 20) 100 % 20 = 0
  have hstep : a.lastLerp % 20 = 0 := hstep
  omega

theorem Anim.Fits.settle {l : Launch} {p : Palette} {a : Anim} (h : a.Fits l)
    (hp : l.palettes.toList[a.pal]? = some p) : (a.settle p.colors.size).Fits l := by
  unfold Anim.settle
  split
  · obtain ⟨hcolor, -, -, hasc, hsize, -⟩ := h.advance hp
    exact ⟨hcolor, Nat.zero_le _, rfl, hasc, hsize, nofun⟩
  · exact h

theorem Anim.Fits.currentColor_lt {l : Launch} {p : Palette} {a : Anim} (h : a.Fits l)
    (hp : l.palettes.toList[a.pal]? = some p) : a.currentColor < p.colors.size := by
  obtain ⟨⟨q, hq, hlt⟩, -⟩ := h
  cases hq.symm.trans hp
  exact hlt

/-- From fields that fit, a style's branch of STEP is never stopped, and leaves fields that fit and a frame or nothing
in an empty buffer. -/
theorem stepStyle_fits {s : State} {a : Anim} {p : Palette} (ha : s.anim = some a)
    (hp : s.launch.palettes.toList[a.pal]? = some p) (fits : a.Fits s.launch) (hb : s.buf = []) :
    ∃ u, stepStyle p a s = .ok () u ∧ u.fault = s.fault ∧ u.buf.length ≤ Config.bufCap ∧
      ∃ a', u.anim = some a' ∧ a'.Fits u.launch := by
  have framed (f : Group → Color) (v : State) (a' : Anim) (hv : v.buf = []) (hl : a'.Fits v.launch)
      (hf : v.fault = s.fault) (h : stepStyle p a s = .ok () (pushFrame f { v with anim := some a' })) :
      ∃ u, stepStyle p a s = .ok () u ∧ u.fault = s.fault ∧ u.buf.length ≤ Config.bufCap ∧
        ∃ a', u.anim = some a' ∧ a'.Fits u.launch := by
    rw [pushFrame_empty f (s := { v with anim := some a' }) hv] at h
    exact ⟨_, h, hf, Nat.le_refl 6, a', rfl, hl⟩
  rcases stepStyle_cases p a s with ⟨-, f, h⟩ | ⟨-, -, -, f, h⟩ | ⟨-, -, f, h⟩ | ⟨tag, -, h⟩ | ⟨hout, -⟩
  · exact framed f s _ hb (fits.advance hp) rfl h
  · exact framed f s _ hb (fits.progress.settle hp) rfl h
  · refine framed f (draw s).2 _ ?_ ?_ ?_ h <;> rw [draw_state]
    · exact hb
    · exact fits.cycled hp _
  · exact ⟨_, h, rfl, by rw [emitDiag_buf, hb]; exact Nat.zero_le _, a, ha, fits⟩
  · exact absurd (fits.currentColor_lt hp) (Nat.not_lt.mpr hout)

/-! #### Every operation keeps the invariant -/

/-- A fault of the spec keeps the invariant. -/
theorem State.Inv.raise {s : State} (h : s.Inv) {f : Fault} (hf : ∀ i, f ≠ .romHole i) :
    State.Inv { s with fault := some f } :=
  ⟨h.animFits, h.bufBound, nofun, fun i hi => hf i (Option.some.inj hi)⟩

theorem State.Inv.clearResult {s : State} (h : s.Inv) : State.Inv { s with result := none } :=
  ⟨h.animFits, h.bufBound, h.bufEmpty, h.inRom⟩

theorem State.Inv.answer {s : State} (h : s.Inv) (v : Value) : (s.answer v).Inv :=
  ⟨h.animFits, h.bufBound, h.bufEmpty, h.inRom⟩

theorem State.Inv.takeCommand {s : State} (h : s.Inv) (rest : List HostAct) : (s.takeCommand rest).Inv :=
  ⟨h.animFits, h.bufBound, h.bufEmpty, h.inRom⟩

theorem State.Inv.configure {s : State} (h : s.Inv) (c : Cfg) (rest : List HostAct) : (s.configure c rest).Inv :=
  ⟨h.animFits, h.bufBound, h.bufEmpty, h.inRom⟩

theorem ne_romHole_of_raised {s t : State} (hs : ∀ i, s.fault ≠ some (.romHole i))
    (h : t.fault = s.fault ∨ ∃ f, t.fault = some f ∧ ∀ i, f ≠ .romHole i) : ∀ i, t.fault ≠ some (.romHole i) := by
  rcases h with hsame | ⟨f, hraised, hrom⟩
  · rw [hsame]
    exact hs
  · rw [hraised]
    exact fun i hi => hrom i (Option.some.inj hi)

theorem Draws.inv {s t : State} (h : Draws s t) (hs : s.Inv) (hf : s.fault = none) : t.Inv where
  animFits := by rw [h.eq]; exact hs.animFits
  bufBound := by rw [h.eq]; exact hs.bufBound
  bufEmpty := fun _ => by rw [h.eq]; exact hs.bufEmpty hf
  inRom := ne_romHole_of_raised hs.inRom h.fault

theorem Sends.inv {A : BusAddr → Prop} {s t : State} (h : Sends A s t) (hs : s.Inv) (hf : s.fault = none) :
    t.Inv where
  animFits := by rw [h.anim, h.launch]; exact hs.animFits
  bufBound := by rw [h.buf]; exact hs.bufBound
  bufEmpty := fun _ => by rw [h.buf]; exact hs.bufEmpty hf
  inRom := ne_romHole_of_raised hs.inRom h.fault

/-- Without a fault an operation was completed. -/
theorem empty_of_completed {x : Flow Unit} (records : x.Records) (empties : ∀ t, x = .ok () t → t.buf = [])
    (h : x.state.fault = none) : x.state.buf = [] := by
  cases x with
  | ok _ t => exact empties t rfl
  | raised t => exact absurd h (records t rfl)

/-- A frame that goes out from fields that fit: completed it has emptied the buffer, stopped it has recorded a fault, and
what it leaves is within the capacity (43_animation.md R212). -/
theorem inv_of_frame {A : BusAddr → Prop} {s : State} {x : Flow Unit} {b : List Color}
    (fits : ∀ a, s.anim = some a → a.Fits s.launch) (hf : s.fault = none) (hb : b.length ≤ Config.bufCap)
    (sent : x.Within (Sends A { s with buf := b })) (records : x.Records)
    (empties : ∀ t, x = .ok () t → t.buf = []) : x.Within State.Inv where
  animFits := by rw [sent.anim, sent.launch]; exact fits
  bufBound := by rw [sent.buf]; exact hb
  bufEmpty := empty_of_completed records empties
  inRom := ne_romHole_of_raised (by rw [hf]; nofun) sent.fault

theorem animBegin_inv (idx : BitVec 16) {s : State} (hs : s.Inv) (hf : s.fault = none) :
    (commandBody (.animBegin idx) s).Within State.Inv := by
  cases hp : s.launch.palettes.toList[idx.toNat]? with
  | none =>
    rw [animBegin_bad hp]
    exact hs.raise nofun
  | some p =>
    obtain ⟨b, hb, sent⟩ := animBegin_within hp
    rw [animBegin_ok hp] at sent ⊢
    refine inv_of_frame (s := { s with anim := some (.start idx.toNat) }) ?_ hf hb sent (renderBegin_records _ _)
      fun _ => renderBegin_empties
    rintro _ ⟨⟩
    exact Anim.start_fits hp

theorem animStep_inv {s : State} (hs : s.Inv) (hf : s.fault = none) :
    (commandBody .animStep s).Within State.Inv := by
  cases ha : s.anim with
  | none =>
    rw [animStep_idle ha]
    exact hs.raise nofun
  | some a =>
    have fits := hs.animFits a ha
    obtain ⟨⟨p, hp, -⟩, -⟩ := id fits
    obtain ⟨u, hu, hfault, hbuf, a', ha', fits'⟩ := stepStyle_fits ha hp fits (hs.bufEmpty hf)
    obtain ⟨m, sent⟩ := blitBuffer_sends u mem_isActive
    rw [animStep_active ha hp, hu, Flow.bind_ok]
    refine inv_of_frame (s := u) ?_ (hfault.trans hf) ?_ sent (blitBuffer_records u) fun _ => blitBuffer_empties
    · rw [ha']
      rintro _ ⟨⟩
      exact fits'
    · rw [List.length_drop]
      omega

theorem commandBody_inv (i : Instr) {s : State} (hs : s.Inv) (hf : s.fault = none) :
    (commandBody i s).Within State.Inv := by
  cases i with
  | encodeChar c => exact hs.answer _
  | printChar d pos c => exact (printAt_draws d c pos s).inv hs hf
  | clearDisplay d => exact (clear_draws d s).inv hs hf
  | gamma v => exact hs.answer _
  | lerp k a b => exact hs.answer _
  | ledInit chip => exact (ledInit_sends chip s).inv hs hf
  | ledSelftest chip => exact (ledSelftest_sends chip s).inv hs hf
  | setLed chip base color =>
    obtain ⟨u, sent, h | ⟨v, h⟩⟩ := setLed_within chip base color s <;> rw [Flow.Within, h]
    · exact sent.inv hs hf
    · exact (sent.inv hs hf).answer v
  | blit =>
    rw [commandBody, blitBuffer_nil (hs.bufEmpty hf)]
    exact hs
  | animStep => exact animStep_inv hs hf
  | animBegin idx => exact animBegin_inv idx hs hf

/-- Settles O16: of the step's branches only a command touches what `State.Inv` speaks of, and every body keeps it. -/
theorem stepKeepsInvariant : Obligations.StepKeepsInvariant := by
  intro s t hs h
  obtain ⟨hf, rfl | ⟨c, rest, rfl⟩ | ⟨w, why, rfl⟩ | ⟨i, rest, hi⟩⟩ := step_cases h
  · exact hs
  · exact hs.configure c rest
  · exact hs.raise nofun
  · exact exec_within hi (commandBody_inv i (hs.takeCommand rest).clearResult hf)

/-! #### Reset (10_state.md R44) -/

/-- Settles O13: the fields of `State.launched`, and no pin is driven. -/
theorem resetValues : Obligations.ResetValues :=
  ⟨fun _ _ => ⟨rfl, fun p => by cases p <;> rfl, rfl, rfl, rfl, rfl, rfl, rfl, rfl, rfl, rfl, rfl, rfl, rfl⟩, rfl⟩

/-- Settles O15: at reset there are no animation fields, no entries and no fault. -/
theorem resetMeetsInvariant : Obligations.ResetMeetsInvariant :=
  fun _ _ => ⟨nofun, Nat.zero_le _, fun _ => rfl, nofun⟩

end Sys2Proof.Machine
end

section
/-! ### The display (40_display.md R121 to R129) -/

namespace Sys2Proof.Machine

/-! #### The encoder -/

theorem enc_getLsbD (c : Byte) (i : Nat) :
    (enc c).getLsbD i =
      if i < 5 then c.getLsbD i else if i = 5 then c.getLsbD 6 else if i = 6 then c.getLsbD 5 else false := by
  simp only [enc, BitVec.getLsbD_append, BitVec.getLsbD_extractLsb']
  rcases i with _ | _ | _ | _ | _ | _ | _ | i <;> simp

theorem dec_enc (c : Byte) : dec (enc c) = c.setWidth 7 := by
  apply BitVec.eq_of_getLsbD_eq
  intro i hi
  rw [dec, enc_getLsbD]
  simp only [BitVec.getLsbD_setWidth, enc_getLsbD]
  interval_cases i <;> simp

/-- Settles O18: the bits of `enc` by `enc_getLsbD`, its inverse by `dec_enc`. -/
theorem encoderSwapsTwoBits : Obligations.EncoderSwapsTwoBits := by
  intro c
  refine ⟨fun i hi => ?_, enc_getLsbD c 5, enc_getLsbD c 6, dec_enc c⟩
  rw [enc_getLsbD, if_pos hi]

/-- Settles O19: the body only answers. -/
theorem encodeCompletes : Obligations.EncodeCompletes :=
  fun c _ h => exec_running h (.encodeChar c)

/-! #### PRINT_CHAR -/

/-- PRINT_CHAR at a legal position drives its 27 levels. -/
theorem exec_printChar {s : State} {pos : BitVec 3} {l : AddrLines} (hf : s.fault = none)
    (hl : s.launch.params.addrMap[pos.toNat]? = some l) (d : Disp) (c : Byte) :
    exec (.printChar d pos c) s = .next (drivePins (printPins d l c) { s with result := none }) := by
  rw [exec_running hf, commandBody, printAt_ok (s := { s with result := none }) hl]
  rfl

/-- Settles O20: the driven levels of `drivePins_eq`, for either display. -/
theorem printCharCompletes : Obligations.PrintCharCompletes := by
  intro d pos c s l hf hl
  rw [exec_printChar hf hl, drivePins_eq]
  cases d <;> rfl

/-- Settles O21: the address map has five entries. -/
theorem printCharFaultsPastPositionFour : Obligations.PrintCharFaultsPastPositionFour := by
  intro d pos c s hf
  split
  · exact legalPosition s (by assumption)
  · rw [exec_running hf, commandBody, printAt_illegal _ (by omega)]
    rfl

/-! #### CLEAR_DISPLAY as five writes -/

theorem drivePins_append (l m : List (Pin × Level)) (s : State) :
    drivePins (l ++ m) s = drivePins m (drivePins l s) := List.foldl_append

theorem drivePins_launch (l : List (Pin × Level)) (s : State) : (drivePins l s).launch = s.launch := by
  rw [drivePins_eq]

theorem drivenPins_legal {s : State} {pos : BitVec 3} {l : AddrLines}
    (hl : s.launch.params.addrMap[pos.toNat]? = some l) (d : Disp) (c : Byte) :
    drivenPins s d pos c = printPins d l c := by
  rw [drivenPins, hl]
  rfl

theorem printPins_length (d : Disp) (l : AddrLines) (c : Byte) : (printPins d l c).length = 27 := rfl

/-- The levels driven by writes at several positions, one after another. -/
def drivenAt (s : State) (d : Disp) (c : Byte) (ps : List (BitVec 3)) : List (Pin × Level) :=
  ps.flatMap fun pos => drivenPins s d pos c

theorem drivenAt_cons_legal {s : State} {pos : BitVec 3} {l : AddrLines}
    (hl : s.launch.params.addrMap[pos.toNat]? = some l) (d : Disp) (c : Byte) (ps : List (BitVec 3)) :
    drivenAt s d c (pos :: ps) = printPins d l c ++ drivenAt s d c ps := by
  rw [drivenAt, List.flatMap_cons, drivenPins_legal hl]
  rfl

/-- The position is read from the launch constants alone. -/
theorem drivenAt_drivePins (l : List (Pin × Level)) (s : State) (d : Disp) (c : Byte) (ps : List (BitVec 3)) :
    drivenAt (drivePins l s) d c ps = drivenAt s d c ps := by
  simp only [drivenAt, drivenPins, drivePins_launch]

theorem drivenAt_length {s : State} {d : Disp} {c : Byte} {ps : List (BitVec 3)} (h : ∀ pos ∈ ps, pos.toNat ≤ 4) :
    (drivenAt s d c ps).length = 27 * ps.length := by
  induction ps with
  | nil => rfl
  | cons pos ps ih =>
    obtain ⟨l, hl⟩ := legalPosition s (h pos List.mem_cons_self)
    rw [drivenAt_cons_legal hl, List.length_append, printPins_length, ih fun p hp => h p (List.mem_cons_of_mem _ hp),
      List.length_cons]
    omega

theorem each_printAt {ps : List (BitVec 3)} (h : ∀ pos ∈ ps, pos.toNat ≤ 4) (d : Disp) (c : Byte) (s : State) :
    Flow.each (printAt d c) ps s = .ok () (drivePins (drivenAt s d c ps) s) := by
  induction ps generalizing s with
  | nil => rfl
  | cons pos ps ih =>
    obtain ⟨l, hl⟩ := legalPosition s (h pos List.mem_cons_self)
    rw [Flow.each_cons, printAt_ok hl, Flow.bind_ok, ih fun p hp => h p (List.mem_cons_of_mem _ hp),
      drivenAt_drivePins, drivenAt_cons_legal hl, drivePins_append]

theorem execAll_printChar {ps : List (BitVec 3)} (h : ∀ pos ∈ ps, pos.toNat ≤ 4) (d : Disp) (c : Byte) {s : State}
    (hf : s.fault = none) (hr : s.result = none) :
    execAll (ps.map fun pos => .printChar d pos c) s = .next (drivePins (drivenAt s d c ps) s) := by
  induction ps generalizing s with
  | nil => rfl
  | cons pos ps ih =>
    obtain ⟨l, hl⟩ := legalPosition s (h pos List.mem_cons_self)
    have cleared : { s with result := none } = s := by rw [← hr]
    rw [List.map_cons, execAll, exec_printChar hf hl, cleared]
    simp only
    rw [ih (fun p hp => h p (List.mem_cons_of_mem _ hp)) (by rw [drivePins_eq]; exact hf)
      (by rw [drivePins_eq]; exact hr), drivenAt_drivePins, drivenAt_cons_legal hl, drivePins_append]

/-- A command reads nothing of the result port. -/
theorem exec_clearResult (i : Instr) (s : State) : exec i { s with result := none } = exec i s := by
  rw [exec_eq_runCommand, exec_eq_runCommand]
  rfl

theorem execAll_clearResult (i : Instr) (is : List Instr) (s : State) :
    execAll (i :: is) { s with result := none } = execAll (i :: is) s := by
  rw [execAll, exec_clearResult, execAll]

theorem clearPositions_legal : ∀ pos ∈ clearPositions, pos.toNat ≤ 4 := by decide

/-- Settles O22: both sides drive the levels of the five positions, 27 each. -/
theorem clearDisplayIsFivePrints : Obligations.ClearDisplayIsFivePrints := by
  intro d s hf
  have clear : exec (.clearDisplay d) s =
      .next (drivePins (drivenAt { s with result := none } d 0x20 clearPositions) { s with result := none }) := by
    rw [exec_running hf, commandBody, each_printAt clearPositions_legal, Flow.state_ok]
  have prints := execAll_printChar clearPositions_legal d 0x20 (s := { s with result := none }) hf rfl
  constructor
  · rw [clear, ← prints]
    exact execAll_clearResult _ _ s
  · rw [drivePins_eq] at clear
    refine ⟨_, _, clear, hf, rfl, ?_⟩
    rw [List.length_map, drivenAt_length clearPositions_legal]
    rfl

end Sys2Proof.Machine
end

section
/-! ### One character write in the reference model of the displays (20_memory.md R82 to R84) -/

namespace Sys2Proof.Machine

theorem refRun_append {r q : Ref} {es : List Event} (h : refRun r es = .ok q) (fs : List Event) :
    refRun r (es ++ fs) = refRun q fs := by
  induction es generalizing r with
  | nil =>
    cases h
    rfl
  | cons e es ih =>
    unfold refRun at h
    rw [List.cons_append, refRun]
    cases hs : refStep r e with
    | error f =>
      rw [hs] at h
      cases h
    | ok r' =>
      rw [hs] at h
      exact ih h

/-- The events that shift one bit in (40_display.md R125). -/
def bitEvents (b : Level) : List Event := [.pin .ser b, .pin .sclk true, .pin .sclk false]

theorem refRun_bit (b : Level) {r : Ref} (h : r.pins.sclk ≠ some true) :
    refRun r (bitEvents b) =
      .ok { r with pins := { r.pins with ser := some b, sclk := some false }, sr := b :: r.sr } := by
  cases b <;> simp [bitEvents, refRun, refStep, refEdge, refShift, Pins.drive, Pins.level, h]

/-- The bits of a character, in the order they are shifted (R125). -/
def serialBits (c : Byte) : List Level := (List.range Config.charBits).map (enc c).getLsbD

theorem refRun_bits (bs : List Level) {r : Ref} (h : r.pins.sclk = some false) :
    ∃ ser, refRun r (bs.flatMap bitEvents) =
      .ok { r with pins := { r.pins with ser := ser }, sr := bs.reverse ++ r.sr } := by
  induction bs generalizing r with
  | nil => exact ⟨r.pins.ser, rfl⟩
  | cons b bs ih =>
    obtain ⟨ser, hser⟩ := ih
      (r := { r with pins := { r.pins with ser := some b, sclk := some false }, sr := b :: r.sr }) rfl
    refine ⟨ser, ?_⟩
    rw [List.flatMap_cons, refRun_append (refRun_bit b (by rw [h]; nofun)), hser]
    simp [h]

/-- The write pulse: RCLK latches the shift register, the display's write enable stores the latch at the address. -/
theorem refRun_pulse (d : Disp) (l : AddrLines) {r : Ref} {code : Code} (ha0 : r.pins.a0 = some l.a0)
    (ha1 : r.pins.a1 = some l.a1) (hr : r.pins.rclk ≠ some true) (hl : latchOf r.sr = some code) :
    ∃ pins, refRun r [.pin (writeEnable d) false, .pin .rclk true, .pin .rclk false, .pin (writeEnable d) true] =
      .ok { r with pins := pins, q := some code, cells := r.cells.set (cellPlace d l) (some (dec code)) } ∧
      pins.sclk = r.pins.sclk ∧ pins.rclk = some false := by
  cases d <;>
    simp [refRun, refStep, refEdge, refLatch, refStore, writeEnable, Pins.drive, Pins.level, ha0, ha1, hr, hl]

theorem refRun_address (l : AddrLines) (r : Ref) :
    refRun r [.pin .a0 l.a0, .pin .a1 l.a1] =
      .ok { r with pins := { r.pins with a0 := some l.a0, a1 := some l.a1 } } := by
  obtain ⟨a1, a0⟩ := l
  cases a0 <;> cases a1 <;> rfl

theorem latchOf_serialBits (c : Byte) (sr : List Level) : latchOf ((serialBits c).reverse ++ sr) = some (enc c) := by
  refine congrArg some (BitVec.eq_of_getLsbD_eq fun i hi => ?_)
  simp only [BitVec.getLsbD_append, BitVec.getLsbD_ofBool]
  interval_cases i <;> simp

theorem printPins_events (d : Disp) (l : AddrLines) (c : Byte) :
    (printPins d l c).map (fun pb => Event.pin pb.1 pb.2) =
      [.pin .a0 l.a0, .pin .a1 l.a1] ++ (serialBits c).flatMap bitEvents ++
        [.pin (writeEnable d) false, .pin .rclk true, .pin .rclk false, .pin (writeEnable d) true] := rfl

/-- The external state once the address is driven and `bits` are shifted in, newest first, with SCLK low again. -/
def Ref.shifted (l : AddrLines) (ser : Option Level) (bits : List Level) (r : Ref) : Ref :=
  { r with
    pins := { r.pins with a0 := some l.a0, a1 := some l.a1, ser := ser, sclk := some false }
    sr := bits ++ r.sr }

theorem refRun_shift (l : AddrLines) (c : Byte) {r : Ref} (hs : r.pins.sclk ≠ some true) :
    ∃ ser, refRun r ([.pin .a0 l.a0, .pin .a1 l.a1] ++ (serialBits c).flatMap bitEvents) =
      .ok (r.shifted l ser (serialBits c).reverse) := by
  obtain ⟨b, bs, hbits⟩ : ∃ b bs, serialBits c = b :: bs := ⟨_, _, rfl⟩
  obtain ⟨ser, hser⟩ := refRun_bits bs (r := r.shifted l (some b) [b]) rfl
  have first : refRun { r with pins := { r.pins with a0 := some l.a0, a1 := some l.a1 } } (bitEvents b) =
      .ok (r.shifted l (some b) [b]) := refRun_bit b (by exact hs)
  refine ⟨ser, ?_⟩
  rw [refRun_append (refRun_address l r), hbits, List.flatMap_cons, refRun_append first, hser]
  simp [Ref.shifted]

/-- One character write, from any external state in which the two clocks are not high. -/
theorem refRun_printPins (d : Disp) (l : AddrLines) (c : Byte) {r : Ref} (hs : r.pins.sclk ≠ some true)
    (hr : r.pins.rclk ≠ some true) :
    ∃ q, refRun r ((printPins d l c).map fun pb => Event.pin pb.1 pb.2) = .ok q ∧
      q.cells = r.cells.set (cellPlace d l) (some (c.setWidth 7)) ∧
      q.pins.sclk = some false ∧ q.pins.rclk = some false := by
  obtain ⟨ser, hshift⟩ := refRun_shift l c hs
  obtain ⟨pins, hpulse, hsclk, hrclk⟩ := refRun_pulse d l (r := r.shifted l ser (serialBits c).reverse) rfl rfl hr
    (latchOf_serialBits c _)
  rw [printPins_events, refRun_append hshift, hpulse]
  exact ⟨_, rfl, by rw [dec_enc]; rfl, hsclk, hrclk⟩

/-- Settles O25: the events are those of `printPins`, which `refRun_printPins` runs. -/
theorem printedCharReachesItsCell : Obligations.PrintedCharReachesItsCell := by
  intro d pos c s t l es r hl hf ht hes hs hr
  obtain ⟨-, htrace⟩ := exec_printChar_next ht
  rw [drivenPins_legal hl] at htrace
  rw [List.append_cancel_left (hes.symm.trans htrace)]
  exact refRun_printPins d l c hs hr

end Sys2Proof.Machine
end

section
/-! ### The LED driver (41_led_driver.md R150 to R165) -/

namespace Sys2Proof.Machine

/-! #### The gamma table -/

theorem getElem?_lut (g : GammaTable) (v : Byte) : g.entries[v.toNat]? = some (lut g v) :=
  List.getElem?_eq_getElem _

theorem lut_zero (g : GammaTable) : lut g 0 = 0 :=
  Option.some.inj ((getElem?_lut g 0).symm.trans g.lawful.2.1)

theorem lut_last (g : GammaTable) : lut g 255 = 255 :=
  Option.some.inj ((getElem?_lut g 255).symm.trans g.lawful.2.2.1)

theorem lut_mono (g : GammaTable) {v w : Byte} (h : v ≤ w) : lut g v ≤ lut g w := by
  obtain ⟨-, -, -, hsorted, -⟩ := g.lawful
  rcases (BitVec.le_def.mp h).lt_or_eq with hlt | heq
  · exact List.pairwise_iff_getElem.mp hsorted _ _ _ _ hlt
  · rw [BitVec.eq_of_toNat_eq heq]
    exact BitVec.le_refl _

theorem exists_lut_ne (g : GammaTable) : ∃ v : Byte, lut g v ≠ v := by
  obtain ⟨hlength, -, -, -, hne⟩ := g.lawful
  by_contra hall
  refine hne (List.ext_getElem (by simp [hlength]) fun i hi hi' => ?_)
  have hsmall : i < 256 := lt_of_lt_of_eq hi hlength
  have hentry := not_not.mp (not_exists.mp hall (BitVec.ofNat 8 i))
  simpa [lut, Nat.mod_eq_of_lt hsmall] using hentry

/-- Settles O27: the laws a `GammaTable` carries, read through `lut`. -/
theorem gammaLawsHold : Obligations.GammaLawsHold :=
  fun g => ⟨lut_zero g, lut_last g, fun _ _ => lut_mono g, exists_lut_ne g⟩

theorem exec_gamma {s : State} (h : s.fault = none) (v : Byte) :
    exec (.gamma v) s = .next { s with result := some (.intensity (lut s.launch.gamma v)) } :=
  exec_running h (.gamma v)

/-- Settles O26: the word is GAMMA's own, and the body answers `lut`. -/
theorem gammaReadsTheTable : Obligations.GammaReadsTheTable := by
  refine ⟨fun v => decodeOfEncode (.gamma v), fun s h => ⟨fun v => ?_, ?_, ?_⟩⟩
  · exact ⟨_, getElem?_lut _ v, exec_gamma h v⟩
  · rw [exec_gamma h, lut_zero]
  · rw [exec_gamma h, lut_last]

/-! #### SET_LED -/

theorem setLed_body_ok {s : State} {chip : BitVec 4} {c : Chip} (hc : s.activeChips[chip.toNat]? = some c)
    (base : Byte) (color : Color) :
    commandBody (.setLed chip base color) s =
      (setLed c.addr base.toNat color s).bind fun r s => .ok () (s.answer (.register (BitVec.ofNat 8 r))) := by
  rw [setLed_body, indexedGroup, readChip_ok hc, Flow.bind_ok]

theorem ofNat_toNat_add (base : Byte) (n : Nat) : BitVec.ofNat 8 (base.toNat + n) = base + BitVec.ofNat 8 n := by
  rw [BitVec.ofNat_add, BitVec.ofNat_toNat, BitVec.setWidth_eq]

/-- Settles O28: `setLed_ok`, its registers as bytes. -/
theorem setLedCompletes : Obligations.SetLedCompletes := by
  intro chip base color s c o hf hc ho hb bus
  rw [exec_running hf, setLed_body_ok (s := { s with result := none }) hc,
    setLed_ok (s := { s with result := none }) ho c.addr hb color bus]
  cases h : s.launch.params.slotLayout <;>
    simp [State.sent, State.answer, groupTxns, lastSlot, h, ofNat_toNat_add, BitVec.ofNat_mul]

theorem readChip_none {index : BitVec 4} {s : State} (h : s.activeChips.length ≤ index.toNat) :
    readChip index s = raise (.noChip index) s := by
  rw [readChip, List.getElem?_eq_none h]

/-- Settles O29: the chip index is read first, then the pixel order, then the base. -/
theorem setLedFaultsBeforeAnyEvent : Obligations.SetLedFaultsBeforeAnyEvent := by
  intro chip base color s hf
  rw [exec_running hf]
  split
  · rw [commandBody, readChip_none (s := { s with result := none }) (by assumption)]
    rfl
  · next hlt =>
    obtain ⟨c, hc⟩ : ∃ c, s.activeChips[chip.toNat]? = some c := ⟨_, List.getElem?_eq_getElem (by omega)⟩
    rw [setLed_body_ok (s := { s with result := none }) hc]
    split
    · next ho =>
      rw [setLed_illegal (s := { s with result := none }) ho]
      rfl
    · next ho =>
      split
      · next hb =>
        obtain ⟨o, ho⟩ := Option.ne_none_iff_exists'.mp ho
        rw [setLed_range (s := { s with result := none }) ho c.addr hb]
        rfl
      · trivial

/-- The transaction at place `k` of a list is the first the transport fails. -/
theorem emitTxns_failAt {ts : List Txn} {k : Nat} {x : Txn} {s : State} {rest : List BusAnswer} (hx : ts[k]? = some x)
    (h : s.answers = List.replicate k .ok ++ .fail :: rest) :
    Flow.each emitTxn ts s =
      .raised
        { s with
          trace := s.trace ++ (ts.take (k + 1)).map .txn
          answers := rest
          fault := some (.busFault x) } := by
  obtain ⟨hk, rfl⟩ := List.getElem?_eq_some_iff.mp hx
  have split : ts = ts.take k ++ ts[k] :: ts.drop (k + 1) := by
    rw [List.cons_getElem_drop_succ, List.take_append_drop]
  have length : (ts.take k).length = k := List.length_take_of_le (by omega)
  conv_lhs => rw [split]
  rw [emitTxns_fail (ts.take k) ts[k] (ts.drop (k + 1)) (by rw [length]; exact h), List.take_succ_eq_append_getElem hk]

/-- Settles O30: the group is cut at its `k`-th transaction. -/
theorem setLedBusFaultKeepsThePartialTrace : Obligations.SetLedBusFaultKeepsThePartialTrace := by
  intro chip base color s c o k x rest hf hc ho hb ha hx
  rw [exec_running hf, setLed_body_ok (s := { s with result := none }) hc,
    setLed_eq (s := { s with result := none }) ho, if_neg (by omega),
    emitTxns_failAt (s := { s with result := none }) hx ha]
  rfl

/-! #### LED_INIT and LED_SELFTEST -/

theorem initTxns_eq (c : Chip) (cfg : Cfg) :
    initTxns c cfg =
      groupOf c.addr c.resetTxns ++ groupOf c.addr c.scaleTxns ++ groupOf c.addr c.blankTxns ++
        groupOf c.addr (if cfg.overdrive = some true then c.ceilTxnsOverdrive else c.ceilTxns) ++
        groupOf c.addr c.normalTxns := by
  have ceiling : ceilingOf c cfg.overdriveOn =
      if cfg.overdrive = some true then c.ceilTxnsOverdrive else c.ceilTxns := by
    rw [ceilingOf, Cfg.overdriveOn]
    rcases cfg.overdrive with _ | _ | _ <;> rfl
  rw [initTxns, ceiling]

theorem ledInit_body_ok {s : State} {chip : BitVec 4} {c : Chip} (hc : s.activeChips[chip.toNat]? = some c) :
    commandBody (.ledInit chip) s = Flow.each emitTxn (initTxns c s.cfg) s := by
  rw [commandBody, readChip_ok hc, Flow.bind_ok, initChip_eq]

/-- Settles O31: the five groups as one list, all answered `ok`. -/
theorem ledInitCompletes : Obligations.LedInitCompletes := by
  intro chip s c ts hf hc hts bus
  rw [← initTxns_eq] at hts
  subst hts
  rw [exec_running hf, ledInit_body_ok (s := { s with result := none }) hc,
    emitTxns_ok (s := { s with result := none }) _ bus]
  rfl

/-- Settles O33: the windows by `testWindows_ok`, then the blanking. -/
theorem ledSelftestCompletes : Obligations.LedSelftestCompletes := by
  intro chip s c n hf hc hn bus
  subst hn
  rw [exec_running hf, commandBody, readChip_ok (s := { s with result := none }) hc, Flow.bind_ok, selfTestChip,
    testWindows_ok c _ (s := { s with result := none }) (bus.mono (by omega)), Flow.bind_ok, blankChip, emitGroup_eq,
    emitTxns_ok]
  · simp [State.sent]
  · exact State.BusOk.sent (s := s) bus (Nat.le_refl _)

theorem activeChips_eq (s : State) :
    s.activeChips = if s.cfg.batterySaver = some true then s.launch.attached.take 1 else s.launch.attached := by
  rw [State.activeChips, Cfg.batterySaverOn]
  rcases s.cfg.batterySaver with _ | _ | _ <;> rfl

/-- Settles O34: both read the chip index first. -/
theorem chipIndexPastTheActiveListFaults : Obligations.ChipIndexPastTheActiveListFaults := by
  intro chip s hf hlen
  rw [← activeChips_eq] at hlen
  have noChip : readChip chip { s with result := none } = raise (.noChip chip) { s with result := none } :=
    readChip_none hlen
  constructor <;> rw [exec_running hf, commandBody, noChip] <;> rfl

end Sys2Proof.Machine
end

section
/-! ### A failing transaction ends its command (60_exceptions.md R253) -/

namespace Sys2Proof.Machine

/-- Where only events other than transactions were added, no transaction follows. -/
theorem Keeps.trace_ne {P : Prop} {s t : State} (h : Keeps P (fun _ => False) s t) (before after : List Event)
    (x : Txn) : t.trace ≠ s.trace ++ before ++ .txn x :: after := by
  obtain ⟨es, he, hnone⟩ := h.trace
  intro ht
  rw [he, List.append_assoc] at ht
  exact hnone x (by rw [List.append_cancel_left ht]; simp)

/-- What stands in a list before an element no member of its first part equals holds that first part. -/
theorem append_eq_append_cons {α : Type} {ds es before after : List α} {x : α} (hx : x ∉ ds)
    (h : ds ++ es = before ++ x :: after) : ∃ mid, before = ds ++ mid ∧ es = mid ++ x :: after := by
  rcases List.append_eq_append_iff.mp h with ⟨mid, hb, he⟩ | ⟨mid, hd, ha⟩
  · exact ⟨mid, hb, he⟩
  · cases mid with
    | nil => exact ⟨[], by simpa using hd.symm, by simpa using ha.symm⟩
    | cons m mid =>
      obtain ⟨rfl, -⟩ := List.cons.inj ha
      exact absurd (by rw [hd]; simp) hx

/-- The last part of a command cuts, from `u`, which the part before it left with events other than transactions. -/
theorem CutsAt.fails {α : Type} {f : State → Flow α} {s u : State} {before after : List Event} {x : Txn}
    (h : CutsAt f u) (hu : u.answers = []) {P : Prop} (keeps : Keeps P (fun _ => False) s u)
    (ht : (f u).state.trace = s.trace ++ before ++ .txn x :: after) (rest : List BusAnswer) :
    ∃ b, f (u.answering (List.replicate (txnCount before) .ok ++ .fail :: rest)) =
      .raised
        { (f u).state with
          trace := s.trace ++ before ++ [.txn x]
          answers := rest
          fault := some (.busFault x)
          buf := b } := by
  obtain ⟨es, ⟨b, e, hstate⟩, -, hfail⟩ := h hu
  obtain ⟨ds, hds, hnone⟩ := keeps.trace
  have hevents : ds ++ es = before ++ .txn x :: after := by
    rw [hstate, hds, List.append_assoc, List.append_assoc] at ht
    exact List.append_cancel_left ht
  obtain ⟨mid, rfl, rfl⟩ := append_eq_append_cons (hnone x) hevents
  have hcount : txnCount ds = 0 := by
    refine List.countP_eq_zero.mpr fun e he => ?_
    cases e with
    | txn y => exact absurd he (hnone y)
    | _ => simp
  obtain ⟨c, hc⟩ := hfail mid after x rest rfl
  refine ⟨c, ?_⟩
  rw [txnCount_append, hcount, Nat.zero_add, hc, hstate, hds]
  simp only [List.append_assoc]

/-- What a failing transaction makes of a command body that would leave `u` on a bus that answers `ok`. -/
def FailsAt (s : State) (f : State → Flow Unit) : Prop :=
  ∀ (before after : List Event) (x : Txn) (rest : List BusAnswer),
    (f s).state.trace = s.trace ++ before ++ .txn x :: after →
    ∃ b, (f (s.answering (List.replicate (txnCount before) .ok ++ .fail :: rest))).state =
      { (f s).state with
        result := none
        fault := some (.busFault x)
        answers := rest
        trace := s.trace ++ before ++ [.txn x]
        buf := b }

theorem Keeps.failsAt {P : Prop} {s : State} {f : State → Flow Unit} (h : (f s).Within (Keeps P (fun _ => False) s)) :
    FailsAt s f := fun before after x _ ht => absurd ht (h.trace_ne before after x)

theorem State.answering_nil {s : State} (h : s.answers = []) : s.answering [] = s := by
  rw [State.answering, ← h]

/-- A body that from `s` runs `g` from `u`, whatever the answers. -/
theorem CutsAt.failsAt {s u : State} {f g : State → Flow Unit} {P : Prop} (h : CutsAt g u) (hs : s.answers = [])
    (hu : u.answers = []) (keeps : Keeps P (fun _ => False) s u) (hr : (f s).state.result = none)
    (hf : ∀ l, f (s.answering l) = g (u.answering l)) : FailsAt s f := by
  have start : f s = g u := by
    have hnil := hf []
    rwa [State.answering_nil hs, State.answering_nil hu] at hnil
  intro before after x rest ht
  rw [start] at ht hr ⊢
  obtain ⟨b, hb⟩ := h.fails hu keeps ht rest
  refine ⟨b, ?_⟩
  rw [hf, hb, Flow.state_raised, ← hr]

theorem indexedGroup_cuts (chip : BitVec 4) (base : Byte) (color : Color) (s : State) :
    CutsAt (indexedGroup chip base color) s :=
  (readChip_cuts chip s).bind fun _ t _ _ _ => setLed_cuts _ _ _ t

theorem setLed_failsAt (chip : BitVec 4) (base : Byte) (color : Color) {s : State} (hs : s.answers = [])
    (hr : s.result = none) : FailsAt s (commandBody (.setLed chip base color)) := by
  intro before after x rest ht
  have sent := indexedGroup_sends chip base color s
  have same : ∀ y : Flow Nat, (y.bind fun r t => .ok () (t.answer (.register (BitVec.ofNat 8 r)))).state.trace =
      y.state.trace := by rintro (⟨r, t⟩ | t) <;> rfl
  rw [setLed_body, same] at ht
  obtain ⟨b, hb⟩ := (indexedGroup_cuts chip base color s).fails hs (Keeps.refl True _ s) ht rest
  refine ⟨b, ?_⟩
  rw [setLed_body, setLed_body, hb, Flow.bind_raised, Flow.state_raised]
  cases hx : indexedGroup chip base color s with
  | ok r t =>
    rw [hx] at sent
    have result : t.result = none := sent.result.trans hr
    simp [State.answer, result]
  | raised t =>
    rw [hx] at sent
    have result : t.result = none := sent.result.trans hr
    simp [result]

theorem animStep_failsAt {s : State} (hs : s.answers = []) (hr : s.result = none) :
    FailsAt s (commandBody .animStep) := by
  have hr' : (commandBody .animStep s).state.result = none := commandBody_result (by simp [SetsResult]) hr
  cases ha : s.anim with
  | none => exact Keeps.failsAt (P := True) (by rw [animStep_idle ha]; exact .raise _ _ _ _)
  | some a =>
    cases hp : s.launch.palettes.toList[a.pal]? with
    | none => exact Keeps.failsAt (P := True) (by rw [animStep_hole ha hp]; exact .raise _ _ _ _)
    | some p =>
      have styled := stepStyle_restyles ha p
      cases hx : stepStyle p a s with
      | raised u =>
        rw [hx] at styled
        exact Keeps.failsAt (P := True) (by rw [animStep_active ha hp, hx]; exact styled.keeps _ _)
      | ok _ u =>
        rw [hx] at styled
        refine (blitBuffer_cuts u).failsAt hs (styled.answers.trans hs) (styled.keeps True _) hr' fun l => ?_
        rw [animStep_active (s := s.answering l) ha hp, stepStyle_answering, hx]
        rfl

theorem animBegin_failsAt (idx : BitVec 16) {s : State} (hs : s.answers = []) (hr : s.result = none) :
    FailsAt s (commandBody (.animBegin idx)) := by
  have hr' : (commandBody (.animBegin idx) s).state.result = none := commandBody_result (by simp [SetsResult]) hr
  cases hp : s.launch.palettes.toList[idx.toNat]? with
  | none => exact Keeps.failsAt (P := True) (by rw [animBegin_bad hp]; exact .raise _ _ _ _)
  | some p =>
    refine (renderBegin_cuts p.colors.head { s with anim := some (.start idx.toNat), buf := [] }).failsAt hs hs
      (Keeps.ofFields (Keeps.refl True _ _)) hr' fun l => ?_
    rw [animBegin_ok (s := s.answering l) hp]
    rfl

theorem commandBody_failsAt (i : Instr) {s : State} (hs : s.answers = []) (hr : s.result = none) :
    FailsAt s (commandBody i) := by
  cases i with
  | encodeChar c => exact Keeps.failsAt (P := True) (State.answer_keeps trivial _ _ _)
  | printChar d pos c => exact Keeps.failsAt (P := True) ((printAt_draws d c pos s).keeps _ _)
  | clearDisplay d => exact Keeps.failsAt (P := True) ((clear_draws d s).keeps _ _)
  | gamma v => exact Keeps.failsAt (P := True) (State.answer_keeps trivial _ _ _)
  | lerp k a b => exact Keeps.failsAt (P := True) (State.answer_keeps trivial _ _ _)
  | setLed chip base color => exact setLed_failsAt chip base color hs hr
  | ledInit chip =>
    have cuts : CutsAt (commandBody (.ledInit chip)) s :=
      (readChip_cuts chip s).bind fun c t _ _ _ => initChip_cuts c t
    exact cuts.failsAt hs hs (.refl True _ s) (commandBody_result (by simp [SetsResult]) hr) fun _ => rfl
  | ledSelftest chip =>
    have cuts : CutsAt (commandBody (.ledSelftest chip)) s :=
      (readChip_cuts chip s).bind fun c t _ _ _ => selfTestChip_cuts c t
    exact cuts.failsAt hs hs (.refl True _ s) (commandBody_result (by simp [SetsResult]) hr) fun _ => rfl
  | blit => exact (blitBuffer_cuts s).failsAt hs hs (.refl True _ s) (commandBody_result (by simp [SetsResult]) hr) fun _ => rfl
  | animStep => exact animStep_failsAt hs hr
  | animBegin idx => exact animBegin_failsAt idx hs hr

/-- Settles O32: LED_INIT's groups are one list, cut by `emitTxns_failAt`; every command by `commandBody_failsAt`, from
the state with no answers to come. -/
theorem busFaultStopsTheSequence : Obligations.BusFaultStopsTheSequence := by
  constructor
  · intro chip s c ts k x rest hf hc hts hx ha
    rw [← initTxns_eq] at hts
    subst hts
    rw [exec_running hf, ledInit_body_ok (s := { s with result := none }) hc,
      emitTxns_failAt (s := { s with result := none }) hx ha]
    rfl
  · intro i s u before after x rest hu htrace ha
    obtain ⟨hf, rfl⟩ := exec_next hu
    have hf : s.fault = none := hf
    obtain ⟨b, hb⟩ := commandBody_failsAt i (s := { s with answers := [], result := none }) rfl rfl before after x rest
      htrace
    refine ⟨b, ?_⟩
    rw [exec_running hf]
    refine congrArg Host.Outcome.next (Eq.trans ?_ hb)
    rw [← ha]
    rfl

end Sys2Proof.Machine
end

section
/-! ### Launch data (10_state.md R38, R39; 41_led_driver.md R151, R166) -/

namespace Sys2Proof

/-- A palette of a launch holds the colors and the descriptor of its record. -/
def Palette.Holds (p : Palette) (d : PaletteData) : Prop :=
  p.colors.toList = d.colors ∧ p.desc = ⟨.ofString d.style, d.fade.getD false, d.mix.getD false⟩

/-- Everything loading a record can answer: its palette, or a refusal because it has no color. -/
theorem PaletteData.load_cases (i : Nat) (d : PaletteData) :
    (∃ p, d.load i = .ok p ∧ p.Holds d) ∨ (d.load i = .error (.emptyPalette i) ∧ d.colors = []) := by
  unfold PaletteData.load
  cases hc : d.colors with
  | nil => exact .inr ⟨rfl, rfl⟩
  | cons c cs => exact .inl ⟨_, rfl, hc.symm, rfl⟩

theorem loadPalettes_cases (i : Nat) (ds : List PaletteData) :
    (∃ ps, loadPalettes i ds = .ok ps ∧ List.Forall₂ Palette.Holds ps ds) ∨
      ((∃ e, loadPalettes i ds = .error e) ∧ ∃ d ∈ ds, d.colors = []) := by
  induction ds generalizing i with
  | nil => exact .inl ⟨[], rfl, .nil⟩
  | cons d ds ih =>
    rw [loadPalettes]
    rcases d.load_cases i with ⟨p, hp, hold⟩ | ⟨hp, hempty⟩ <;> rw [hp]
    · rcases ih (i + 1) with ⟨ps, hps, holds⟩ | ⟨⟨e, he⟩, d', hd', hempty⟩
      · rw [hps]
        exact .inl ⟨p :: ps, rfl, .cons hold holds⟩
      · rw [he]
        exact .inr ⟨⟨e, rfl⟩, d', List.mem_cons_of_mem _ hd', hempty⟩
    · exact .inr ⟨⟨_, rfl⟩, d, List.mem_cons_self, hempty⟩

theorem map_eq_of_holds {ps : List Palette} {ds : List PaletteData} (h : List.Forall₂ Palette.Holds ps ds) :
    ps.map (fun p => (p.colors.toList, p.desc)) =
      ds.map (fun p => (p.colors, ⟨.ofString p.style, p.fade.getD false, p.mix.getD false⟩)) := by
  induction h with
  | nil => rfl
  | cons hold _ ih =>
    obtain ⟨hcolors, hdesc⟩ := hold
    rw [List.map_cons, List.map_cons, ih, hcolors, hdesc]

/-- Settles O14: along the checks of `Launch.load`, first the palettes, then the gamma table, then the addresses. -/
theorem launchDataIsChecked : Obligations.LaunchDataIsChecked := by
  intro d
  rcases loadPalettes_cases 0 d.palettes with ⟨ps, hps, holds⟩ | ⟨⟨e, he⟩, hempty⟩
  · simp only [Launch.load, hps]
    cases ps with
    | nil => exact .inl (List.forall₂_nil_left_iff.mp holds)
    | cons p ps =>
      by_cases hg : GammaLaws d.gamma
      · by_cases hc : (d.attached.map Chip.addr).Nodup
        · simp only [dif_pos hg, dif_pos hc]
          refine ⟨fun hnil => ?_, map_eq_of_holds holds, trivial, trivial, trivial⟩
          rw [hnil] at holds
          cases holds
        · simp only [dif_pos hg, dif_neg hc]
          exact .inr (.inr (.inr hc))
      · simp only [dif_neg hg]
        exact .inr (.inr (.inl hg))
  · simp only [Launch.load, he]
    exact .inr (.inl hempty)

end Sys2Proof
end

section
/-! ### The interpolator (42_interpolator.md R180 to R185) -/

namespace Sys2Proof.Machine

/-- A rounding is exact on a multiple of 100 and lies strictly within 1 of the quotient (R182). -/
theorem roundPercent_admissible (r : LerpRound) (n : Int) :
    (100 ∣ n → 100 * roundPercent r n = n) ∧ n - 100 < 100 * roundPercent r n ∧
      100 * roundPercent r n < n + 100 := by
  cases r <;> simp only [roundPercent]
  case floor => omega
  all_goals split <;> omega

/-- Settles O38: `roundPercent_admissible`, rounding by rounding. -/
theorem roundingIsAdmissible : Obligations.RoundingIsAdmissible := roundPercent_admissible

theorem roundPercent_mul (r : LerpRound) (m : Int) : roundPercent r (100 * m) = m :=
  Int.eq_of_mul_eq_mul_left (by decide) ((roundPercent_admissible r (100 * m)).1 (Int.dvd_mul_right 100 m))

theorem roundPercent_ge {r : LerpRound} {n m : Int} (h : 100 * m ≤ n) : m ≤ roundPercent r n := by
  have := (roundPercent_admissible r n).2.1
  omega

theorem roundPercent_le {r : LerpRound} {n m : Int} (h : n ≤ 100 * m) : roundPercent r n ≤ m := by
  have := (roundPercent_admissible r n).2.2
  omega

/-- Under `Floor` the rounding is the floor of the quotient. -/
theorem roundPercent_floor (n : Int) : roundPercent .floor n = ⌊(n : Rat) / 100⌋ :=
  (Rat.floor_intCast_div_natCast n 100).symm

/-- Settles O37: the lanes of `blend`, and `roundPercent_floor`. -/
theorem lerpCompletes : Obligations.LerpCompletes := by
  intro k ca cb s hf
  refine ⟨fun x => lerpLane s.launch.params.lerpRound (chan ca x) (chan cb x) k.toNat,
    exec_running hf (.lerp k ca cb), fun x => ⟨rfl, fun hr => ?_⟩⟩
  simp only [lerpLane, hr, roundPercent_floor]
  congr 1
  push_cast
  ring

theorem lerpLane_self (r : LerpRound) (a : Byte) (k : Nat) : lerpLane r a a k = a.toNat := by
  rw [lerpLane, sub_self, zero_mul, add_zero, roundPercent_mul]

theorem lerpLane_zero (r : LerpRound) (a b : Byte) : lerpLane r a b 0 = a.toNat := by
  rw [lerpLane, Nat.cast_zero, mul_zero, add_zero, roundPercent_mul]

theorem lerpLane_hundred (r : LerpRound) (a b : Byte) : lerpLane r a b 100 = b.toNat := by
  rw [lerpLane, show (100 : Int) * a.toNat + (b.toNat - a.toNat) * (100 : Nat) = 100 * b.toNat by push_cast; ring,
    roundPercent_mul]

theorem pack_unpack (c : Color) : pack (unpack c) = c := by
  have lane : ∀ x : Byte, BitVec.ofInt 8 (x.toNat : Int) = x := fun x => by
    rw [BitVec.ofInt_natCast, BitVec.ofNat_toNat, BitVec.setWidth_eq]
  rw [pack, unpack, lane, lane, lane, chan, chan, chan,
    BitVec.extractLsb'_append_extractLsb'_eq_extractLsb' (show 16 = 8 + 8 from rfl),
    BitVec.extractLsb'_append_extractLsb'_eq_extractLsb' (show 8 = 0 + 8 from rfl)]
  exact BitVec.extractLsb'_eq_self

/-- Settles O39: lane by lane. -/
theorem lerpLaws : Obligations.LerpLaws := by
  intro r a b k
  simp only [blend, unpack, lerpLane_self, lerpLane_zero, lerpLane_hundred, true_and]
  exact pack_unpack a

/-- Settles O40: the exact value lies between the hundredfold channels, and no rounding passes an integer. -/
theorem lerpStaysBetween : Obligations.LerpStaysBetween := by
  intro r a b k hk
  have hk : (k : Int) ≤ 100 := by exact_mod_cast hk
  have hk0 : 0 ≤ (k : Int) := Int.natCast_nonneg k
  rw [lerpLane]
  rcases le_total (a.toNat : Int) b.toNat with h | h
  · rw [min_eq_left h, max_eq_right h]
    exact ⟨roundPercent_ge (by nlinarith), roundPercent_le (by nlinarith)⟩
  · rw [min_eq_right h, max_eq_left h]
    exact ⟨roundPercent_ge (by nlinarith), roundPercent_le (by nlinarith)⟩

end Sys2Proof.Machine
end

section
/-! ### The Channel Buffer and Blit (20_memory.md R66; 43_animation.md R215 to R218) -/

namespace Sys2Proof.Machine

/-- Settles O42: the buffer is its head and its tail. -/
theorem bufPopTakesTheOldest : Obligations.BufPopTakesTheOldest := by
  intro s h
  obtain ⟨c, cs, hb⟩ := List.exists_cons_of_length_pos h
  rw [bufPop, hb]
  exact ⟨c, _, rfl, rfl, rfl⟩

/-- Settles O43: `pushFrame_empty`. -/
theorem frameEvictsGroupZero : Obligations.FrameEvictsGroupZero := by
  intro f s hb
  exact pushFrame_empty f hb

/-- Settles O45: `blitBuffer_nil`. -/
theorem emptyBlitSendsNothing : Obligations.EmptyBlitSendsNothing := by
  intro s hf hb
  rw [exec_running hf, commandBody, blitBuffer_nil (s := { s with result := none }) hb]
  rfl

theorem frameTxns_noChips {s : State} (h : s.activeChips = []) (o : PixelOrder) (cs : List Color) :
    s.frameTxns o cs = [] :=
  List.eq_nil_of_length_eq_zero (by rw [State.frameTxns, blitTxns_length, h]; simp)

/-- A Blit that goes out, with or without chips (R215). -/
theorem blitBuffer_sent {s : State} {o : PixelOrder} (ho : s.activeChips ≠ [] → pixelOrder s.cfg.pixelOrder = some o)
    (fit : BlitFits s.launch.params o s.activeChips.length s.buf.length)
    (bus : s.BusOk (3 * s.activeChips.length * s.buf.length)) :
    blitBuffer s = .ok () (State.sent (s.frameTxns o s.buf) { s with buf := [] }) := by
  by_cases hc : s.activeChips = []
  · rw [blitBuffer_noChips hc, frameTxns_noChips hc, State.sent_nil]
  · exact blitBuffer_ok (ho hc) fit bus

/-- Settles O44: `blitBuffer_sent`. -/
theorem blitCompletes : Obligations.BlitCompletes := by
  intro s o hf ho fit bus
  rw [exec_running hf, commandBody, blitBuffer_sent (s := { s with result := none }) ho fit bus]
  rfl

/-- A frame pushed and blitted from a state in which it can go out (43_animation.md R217, R218). -/
theorem blitBuffer_frame {o : PixelOrder} {extra : Nat} {s : State} (h : s.Ready o extra) (f : Group → Color) :
    blitBuffer (pushFrame f s) = .ok () (s.sent (s.frameTxns o (frameOf f))) := by
  rw [pushFrame_empty f h.empty,
    blitBuffer_sent (s := { s with buf := frameOf f }) h.order h.range (h.bus.mono (Nat.le_add_right _ _)),
    show ({ s with buf := [] } : State) = s from State.buf_self h.empty]
  rfl

/-! #### Base growth (70_reset_and_hazards.md R303) -/

/-- The defaults of R303, from base 1, with a legal pixel order and a bus that answers `ok`. -/
structure State.Defaults (o : PixelOrder) (s : State) : Prop where
  order : pixelOrder s.cfg.pixelOrder = some o
  threading : s.launch.params.blitThreading = .perCall
  layout : s.launch.params.slotLayout = .slot
  base : s.launch.params.firstBase = 1
  bus : ∀ a ∈ s.answers, a = .ok

/-- With six chips or more a Blit of six entries is stopped at the 33rd call, 96 transactions sent. -/
theorem blitBuffer_crosses {o : PixelOrder} {s : State} (h : s.Defaults o) (hb : s.buf.length = 6)
    (hc : 6 ≤ s.activeChips.length) :
    ∃ b, blitBuffer s =
      .raised { s.sent ((s.frameTxns o s.buf).take 96) with fault := some (.registerRange 257), buf := b } := by
  obtain ⟨b, hdrain⟩ := drain_crosses s.buf rfl h.order (groupStride_slot h.layout) h.threading h.bus 0 (by omega)
    (by rw [hb]; omega)
  refine ⟨b, ?_⟩
  have hbase : s.launch.params.firstBase.toNat = 1 := by rw [h.base]; rfl
  rw [blitBuffer, hbase, hdrain, drainTxns_closed _ _ _ _ _ _ 0 (by rw [hbase]; rfl)]
  rfl

theorem callBase_default {o : PixelOrder} {s : State} (h : s.Defaults o) (k n j : Nat) :
    callBase s.launch.params o k n j = 1 + 8 * (k * n + j) := by
  have hbase : s.launch.params.firstBase.toNat = 1 := by rw [h.base]; rfl
  simp only [callBase, h.threading, groupStride_slot h.layout, hbase]

/-- With five chips or fewer it goes out. -/
theorem blitBuffer_fits {o : PixelOrder} {s : State} (h : s.Defaults o) (hb : s.buf.length = 6)
    (hc : s.activeChips.length < 6) :
    blitBuffer s = .ok () (State.sent (s.frameTxns o s.buf) { s with buf := [] }) := by
  refine blitBuffer_sent (fun _ => h.order) (fun n hn j hj => ?_) (.all h.bus _)
  have hcalls : s.activeChips.length * n ≤ 5 * 5 := Nat.mul_le_mul (by omega) (by omega)
  rw [callBase_default h]
  omega

theorem blitBuffer_default_fault {o : PixelOrder} {s : State} (h : s.Defaults o) (hf : s.fault = none)
    (hb : s.buf.length = 6) :
    (blitBuffer s).state.fault = if 6 ≤ s.activeChips.length then some (.registerRange 257) else none := by
  split
  · next hc =>
    obtain ⟨b, hcross⟩ := blitBuffer_crosses h hb hc
    rw [hcross]
    rfl
  · next hc =>
    rw [blitBuffer_fits h hb (by omega)]
    exact hf

end Sys2Proof.Machine
end

section
/-! ### BEGIN (43_animation.md R204, R205, R221) -/

namespace Sys2Proof.Machine

/-- The state BEGIN renders from: the result port cleared, its fields written, the buffer emptied (R204). -/
def State.beginning (idx : Nat) (s : State) : State :=
  { s with result := none, anim := some (.start idx), buf := [] }

theorem exec_animBegin {idx : BitVec 16} {s : State} {p : Palette} (hf : s.fault = none)
    (hp : s.launch.palettes.toList[idx.toNat]? = some p) :
    exec (.animBegin idx) s = .next (renderBegin p.colors.head (s.beginning idx.toNat)).state := by
  rw [exec_running hf, animBegin_ok (s := { s with result := none }) hp]
  rfl

theorem renderBegin_renderFirst {s : State} (h : s.launch.params.beginOrder = .renderThenBlank) (c : Color) :
    renderBegin c s = (flatFrame c s).bind fun _ t => blankAll t := by
  rw [renderBegin, h]

theorem renderBegin_blankFirst {s : State} (h : s.launch.params.beginOrder = .blankThenRender) (c : Color) :
    renderBegin c s = (blankAll s).bind fun _ t => flatFrame c t := by
  rw [renderBegin, h]

theorem frameTxns_length (o : PixelOrder) (cs : List Color) (s : State) :
    (s.frameTxns o cs).length = 3 * s.activeChips.length * cs.length := blitTxns_length _ _ _ _ _

theorem State.Ready.sent {o : PixelOrder} {ts : List Txn} {s : State} (h : s.Ready o ts.length) :
    (s.sent ts).Ready o 0 :=
  ⟨h.running, h.empty, h.order, h.range, State.BusOk.sent h.bus (by rw [Nat.add_comm]; exact Nat.le_refl _)⟩

theorem flatFrame_sent {o : PixelOrder} {extra : Nat} {s : State} (h : s.Ready o extra) (c : Color) :
    flatFrame c s = .ok () (s.sent (s.frameTxns o (List.replicate 6 c))) := blitBuffer_frame h fun _ => c

theorem animBegin_index {idx : BitVec 16} {s : State} (h : idx.toNat < s.launch.palettes.size) :
    ∃ p, s.launch.palettes.toList[idx.toNat]? = some p :=
  ⟨_, List.getElem?_eq_getElem (by rwa [NonEmpty.toList_length])⟩

/-- Settles O48: the frame by `flatFrame_sent` and the blanking by `blankAll_ok`, in either order. -/
theorem beginCompletes : Obligations.BeginCompletes := by
  intro idx s p o hp h
  have ready : (s.beginning idx.toNat).Ready o (blankTxns (s.beginning idx.toNat).activeChips).length :=
    ⟨h.running, h.empty, h.order, h.range, h.bus⟩
  rw [exec_animBegin (s := s) h.running hp]
  cases hb : s.launch.params.beginOrder with
  | renderThenBlank =>
    rw [renderBegin_renderFirst (s := s.beginning _) hb, flatFrame_sent ready, Flow.bind_ok, blankAll_ok,
      State.sent_sent]
    · rfl
    · refine ready.bus.sent ?_
      rw [frameTxns_length]
      exact Nat.le_refl _
  | blankThenRender =>
    rw [renderBegin_blankFirst (s := s.beginning _) hb, blankAll_ok (ready.bus.mono (Nat.le_add_left _ _)),
      Flow.bind_ok, flatFrame_sent ready.sent, State.sent_sent]
    rfl

/-- Settles O49: BEGIN writes the fields before it sends, and sending leaves them. -/
theorem beginSetsTheFieldsFirst : Obligations.BeginSetsTheFieldsFirst := by
  intro idx s t hidx h
  obtain ⟨p, hp⟩ := animBegin_index hidx
  obtain ⟨b, -, sent⟩ := exec_within h (animBegin_within (s := { s with result := none }) hp)
  refine ⟨sent.anim, fun hf => ?_⟩
  rw [exec_animBegin (exec_next h).1 hp] at h
  cases h
  exact empty_of_completed (renderBegin_records _ _) (fun _ => renderBegin_empties) hf

/-- Settles O50: the palette index and the animation fields are read first. -/
theorem beginAndStepFaultEarly : Obligations.BeginAndStepFaultEarly := by
  intro s hf
  constructor
  · intro idx hidx
    rw [exec_running hf, animBegin_bad (s := { s with result := none })
      (List.getElem?_eq_none (by rwa [NonEmpty.toList_length]))]
    rfl
  · intro hb
    rw [exec_running hf, animStep_idle (s := { s with result := none })
      (Option.isNone_iff_eq_none.mp (Option.isSome_eq_false_iff.mp hb))]
    rfl

end Sys2Proof.Machine
end

section
/-! ### STEP (43_animation.md R206 to R213) -/

namespace Sys2Proof.Machine

/-- The animation fields a STEP leaves, by style (R206): advanced, a crossfade tick, a new cycle with the draw `d`, or as
they were. -/
def Anim.ticked (p : Palette) (d : Draw) (a : Anim) : Anim :=
  match p.desc.style with
  | .fade => a.advance p.colors.size
  | .sweep => a.advance p.colors.size
  | .sparkle => if a.lerping && p.desc.fade then a.progress.settle p.colors.size else a.cycled p d
  | .unknown _ => a

/-- Whether a STEP takes a draw: only to start a sparkle cycle (R210). -/
def Anim.drawsNow (p : Palette) (a : Anim) : Bool := p.desc.style == .sparkle && !(a.lerping && p.desc.fade)

/-- The state a style's branch of STEP fills its frame from. -/
def State.ticked (p : Palette) (a : Anim) (s : State) : State :=
  { s with
    anim := some (a.ticked p s.nextDraw)
    draws := if a.drawsNow p then s.draws.tail else s.draws
    drawPos := if a.drawsNow p then s.drawPos + 1 else s.drawPos }

/-- The branch of a style the spec names, from a color index inside the palette: a frame filled from `State.ticked`. -/
theorem stepStyle_named {s : State} {a : Anim} {p : Palette} (hlt : a.currentColor < p.colors.size)
    (hstyle : ∀ tag, p.desc.style ≠ .unknown tag) :
    ∃ f, stepStyle p a s = .ok () (pushFrame f (s.ticked p a)) := by
  rcases stepStyle_cases p a s with ⟨hs, f, h⟩ | ⟨hs, hl, hfade, f, h⟩ | ⟨hs, hoff, f, h⟩ | ⟨tag, ht, -⟩ | ⟨hout, -⟩
  · refine ⟨f, ?_⟩
    rw [h]
    rcases hs with hs | hs <;> simp [State.ticked, Anim.ticked, Anim.drawsNow, hs]
  · refine ⟨f, ?_⟩
    rw [h]
    simp [State.ticked, Anim.ticked, Anim.drawsNow, hs, hl, hfade]
  · refine ⟨f, ?_⟩
    have hidle : (a.lerping && p.desc.fade) = false := by rcases hoff with h | h <;> simp [h]
    rw [h, draw_state, draw_next]
    simp [State.ticked, Anim.ticked, Anim.drawsNow, hs, hidle]
  · exact absurd ht (hstyle tag)
  · exact absurd hlt (Nat.not_lt.mpr hout)

end Sys2Proof.Machine
end

section
/-! ### What a STEP completes to, by style (43_animation.md R207 to R212) -/

namespace Sys2Proof.Machine

theorem exec_animStep {s : State} {a : Anim} {p : Palette} (hf : s.fault = none) (ha : s.anim = some a)
    (hp : s.launch.palettes.toList[a.pal]? = some p) :
    exec .animStep s =
      .next ((stepStyle p a { s with result := none }).bind fun _ t => blitBuffer t).state := by
  rw [exec_running hf, animStep_active (s := { s with result := none }) ha hp]

/-- A STEP whose branch fills the frame `f` from `u`, where it can go out. -/
theorem exec_animStep_frame {s u : State} {a : Anim} {p : Palette} {o : PixelOrder} {f : Group → Color}
    (hf : s.fault = none) (ha : s.anim = some a) (hp : s.launch.palettes.toList[a.pal]? = some p)
    (hstyle : stepStyle p a { s with result := none } = .ok () (pushFrame f u)) (ready : u.Ready o 0) :
    exec .animStep s = .next (u.sent (u.frameTxns o (frameOf f))) := by
  rw [exec_animStep hf ha hp, hstyle, Flow.bind_ok, blitBuffer_frame ready]
  rfl

theorem stepStyle_flat {s : State} {a : Anim} {p : Palette} {c : Color}
    (hs : p.desc.style = .fade ∨ p.desc.style = .sweep)
    (hc : p.colors.toList[(a.currentColor + 1) % p.colors.size]? = some c) :
    stepStyle p a s = .ok () (pushFrame (fun _ => c) { s with anim := some (a.advance p.colors.size) }) := by
  have flat : stepFlat p a s = .ok () (pushFrame (fun _ => c) { s with anim := some (a.advance p.colors.size) }) := by
    simp only [stepFlat, colorAt, Anim.advance_currentColor, hc, Flow.bind_ok, fill]
  rcases hs with hs | hs <;> simp only [stepStyle, hs, flat]

/-- Settles O51: the frame of `stepStyle_flat`. -/
theorem stepFlatCompletes : Obligations.StepFlatCompletes := by
  intro s a p c o ha hp hs hc ready
  rw [exec_animStep_frame ready.running ha hp (stepStyle_flat hs hc)
    ⟨ready.running, ready.empty, ready.order, ready.range, ready.bus⟩]
  rfl

theorem stepStyle_crossfade {s : State} {a : Anim} {p : Palette} {c target : Color} (hs : p.desc.style = .sparkle)
    (hl : a.lerping = true) (hfade : p.desc.fade = true) (hc : p.colors.toList[a.currentColor]? = some c)
    (ht : (if p.desc.mix then p.colors.toList[(a.currentColor + 1) % p.colors.size]? else some black) = some target) :
    stepStyle p a s =
      .ok () (pushFrame
        (fun g => if g ∈ a.active then
          pack (blend s.launch.params.lerpRound c target (min (a.lastLerp + 20) 100)) else black)
        { s with anim := some (a.progress.settle p.colors.size) }) := by
  have htarget : crossfadeTarget p a.progress s = .ok target s := by
    unfold crossfadeTarget colorAt
    split at ht
    · next hmix => simp only [hmix, if_true, Anim.progress, ht]
    · next hmix =>
      cases ht
      simp only [hmix, if_false, Bool.false_eq_true]
  simp only [stepStyle, hs, hl, hfade, Bool.and_self, if_true, stepCrossfade, htarget, Flow.bind_ok, colorAt,
    show a.progress.currentColor = a.currentColor from rfl, hc]
  rfl

/-- Below 100 a crossfade tick only writes its progress (R209). -/
theorem Anim.progress_settle_lt {a : Anim} (len : Nat) (h : a.lastLerp + 20 < 100) :
    a.progress.settle len = { a with lastLerp := a.lastLerp + 20 } := by
  have hmin : min (a.lastLerp + Config.lerpStep) Config.lerpMax = a.lastLerp + 20 := Nat.min_eq_left h.le
  have hne : a.lastLerp + 20 ≠ Config.lerpMax := Nat.ne_of_lt h
  simp only [Anim.settle, Anim.progress, hmin, if_neg hne]

/-- At 100 it commits (R209). -/
theorem Anim.progress_settle_ge {a : Anim} (len : Nat) (h : 100 ≤ a.lastLerp + 20) :
    a.progress.settle len =
      { a with lastLerp := 0, lerping := false, currentColor := (a.currentColor + 1) % len } := by
  have hmin : min (a.lastLerp + Config.lerpStep) Config.lerpMax = Config.lerpMax := Nat.min_eq_right h
  simp only [Anim.settle, Anim.progress, hmin, if_true, Anim.commit, Anim.advance]

/-- Settles O52: the frame of `stepStyle_crossfade`; the fields by whether the progress reaches 100. -/
theorem stepCrossfadeCompletes : Obligations.StepCrossfadeCompletes := by
  intro s a p c target o ha hp hs hl hfade hc ht ready
  rw [exec_animStep_frame ready.running ha hp (stepStyle_crossfade hs hl hfade hc ht)
    ⟨ready.running, ready.empty, ready.order, ready.range, ready.bus⟩]
  split
  · next hlt => rw [Anim.progress_settle_lt _ hlt]; rfl
  · next hge => rw [Anim.progress_settle_ge _ (by omega)]; rfl

theorem stepStyle_newSparkle {s : State} {a : Anim} {p : Palette} {c : Color} (hs : p.desc.style = .sparkle)
    (hoff : a.lerping = false ∨ p.desc.fade = false)
    (hc : p.colors.toList[(a.cycled p s.nextDraw).currentColor]? = some c) :
    stepStyle p a s =
      .ok () (pushFrame (fun g => if g ∈ (a.cycled p s.nextDraw).active then c else black)
        { s with anim := some (a.cycled p s.nextDraw), draws := s.draws.tail, drawPos := s.drawPos + 1 }) := by
  have hidle : (a.lerping && p.desc.fade) = false := by rcases hoff with h | h <;> simp [h]
  simp only [stepStyle, hs, hidle, Bool.false_eq_true, if_false]
  unfold stepNewSparkle
  dsimp only
  rw [draw_next, draw_state, ← Anim.cycled]
  simp only [colorAt, hc, Flow.bind_ok]
  rfl

/-- Settles O53: the frame of `stepStyle_newSparkle`; the fields are those of `Anim.cycled`. -/
theorem stepNewSparkleCompletes : Obligations.StepNewSparkleCompletes := by
  intro s a b p c o ha hp hs hoff hb hc ready
  obtain rfl : b = a.cycled p s.nextDraw := by
    rw [hb, Anim.cycled]
    cases p.desc.fade <;> rfl
  rw [exec_animStep_frame ready.running ha hp (stepStyle_newSparkle (s := { s with result := none }) hs hoff hc)
    ⟨ready.running, ready.empty, ready.order, ready.range, ready.bus⟩]
  rfl

/-- Settles O54: the diagnostic, and a Blit of the empty buffer. -/
theorem stepUnknownStyleOnlyDiagnoses : Obligations.StepUnknownStyleOnlyDiagnoses := by
  intro s a p tag hf hb ha hp hs
  have diag : stepStyle p a { s with result := none } = .ok () (emitDiag tag { s with result := none }) := by
    simp only [stepStyle, hs]
  rw [exec_animStep hf ha hp, diag, Flow.bind_ok, blitBuffer_nil (by exact hb)]
  rfl

end Sys2Proof.Machine
end

section
/-! ### Several STEPs (43_animation.md R211, R222) -/

namespace Sys2Proof.Machine

theorem execAll_cons_next {i : Instr} {is : List Instr} {s t : State} (h : execAll (i :: is) s = .next t) :
    ∃ m, exec i s = .next m ∧ execAll is m = .next t := by
  rw [execAll] at h
  cases hx : exec i s with
  | next m =>
    rw [hx] at h
    exact ⟨m, rfl, h⟩
  | fault f =>
    rw [hx] at h
    cases h
  | refused r =>
    rw [hx] at h
    cases h

/-- Whatever the bus and the pixel order do, a STEP of a style the spec names leaves the fields and the oracle of
`State.ticked`. -/
theorem animStep_next {s t : State} {a : Anim} {p : Palette} (ha : s.anim = some a)
    (hp : s.launch.palettes.toList[a.pal]? = some p) (hlt : a.currentColor < p.colors.size)
    (hstyle : ∀ tag, p.desc.style ≠ .unknown tag) (h : exec .animStep s = .next t) :
    t.launch = s.launch ∧ t.anim = (s.ticked p a).anim ∧ t.draws = (s.ticked p a).draws ∧
      t.drawPos = (s.ticked p a).drawPos := by
  obtain ⟨f, hs⟩ := stepStyle_named (s := { s with result := none }) hlt hstyle
  obtain ⟨b, hb⟩ := pushFrame_buf f (State.ticked p a { s with result := none })
  have blitted := blitBuffer_sends (A := fun _ => True) { State.ticked p a { s with result := none } with buf := b }
    (by simp)
  rw [exec_animStep (exec_next h).1 ha hp, hs, Flow.bind_ok, hb] at h
  cases h
  obtain ⟨m, sent⟩ := blitted
  exact ⟨sent.launch, sent.anim, sent.draws, sent.drawPos⟩

theorem Anim.ticked_flat {p : Palette} (hs : p.desc.style = .fade ∨ p.desc.style = .sweep) (d : Draw) (a : Anim) :
    a.ticked p d = a.advance p.colors.size := by
  rcases hs with hs | hs <;> simp only [Anim.ticked, hs]

/-- Settles O57: by induction on the number of STEPs, each an `Anim.advance`. -/
theorem flatStyleIndexLaw : Obligations.FlatStyleIndexLaw := by
  intro n
  induction n with
  | zero =>
    intro s t a p ha hp hs hlt h
    cases h
    rw [Nat.add_zero, Nat.mod_eq_of_lt hlt, ha]
  | succ n ih =>
    intro s t a p ha hp hs hlt h
    obtain ⟨m, hm, hrest⟩ := execAll_cons_next h
    obtain ⟨hlaunch, hanim, -, -⟩ := animStep_next ha hp hlt (by rcases hs with hs | hs <;> rw [hs] <;> nofun) hm
    have hanim : m.anim = some (a.advance p.colors.size) := by rw [hanim, ← Anim.ticked_flat hs]; rfl
    rw [ih m t (a.advance p.colors.size) p hanim (by rw [hlaunch]; exact hp) hs
      (a.advance_currentColor_lt (NonEmpty.size_pos _)) hrest, Anim.advance_currentColor, Nat.mod_add_mod,
      Nat.add_assoc, Nat.add_comm 1 n]
    rfl

/-- A crossfade tick, from the fields on. -/
theorem animStep_crossfade {s t : State} {a : Anim} {p : Palette} (ha : s.anim = some a)
    (hp : s.launch.palettes.toList[a.pal]? = some p) (hs : p.desc.style = .sparkle) (hfade : p.desc.fade = true)
    (hl : a.lerping = true) (hlt : a.currentColor < p.colors.size) (h : exec .animStep s = .next t) :
    t.launch = s.launch ∧ t.anim = some (a.progress.settle p.colors.size) ∧ t.drawPos = s.drawPos := by
  obtain ⟨hlaunch, hanim, -, hpos⟩ := animStep_next ha hp hlt (by rw [hs]; nofun) h
  refine ⟨hlaunch, ?_, ?_⟩
  · rw [hanim]
    simp [State.ticked, Anim.ticked, hs, hl, hfade]
  · rw [hpos]
    simp [State.ticked, Anim.drawsNow, hl, hfade]

/-- The tick that starts a cycle, from the fields on. -/
theorem animStep_newCycle {s t : State} {a : Anim} {p : Palette} (ha : s.anim = some a)
    (hp : s.launch.palettes.toList[a.pal]? = some p) (hs : p.desc.style = .sparkle) (hfade : p.desc.fade = true)
    (hl : a.lerping = false) (hlt : a.currentColor < p.colors.size) (h : exec .animStep s = .next t) :
    t.launch = s.launch ∧ t.anim = some (a.newCycle s.nextDraw) ∧ t.drawPos = s.drawPos + 1 := by
  obtain ⟨hlaunch, hanim, -, hpos⟩ := animStep_next ha hp hlt (by rw [hs]; nofun) h
  refine ⟨hlaunch, ?_, ?_⟩
  · rw [hanim]
    simp [State.ticked, Anim.ticked, Anim.cycled, hs, hl, hfade]
  · rw [hpos]
    simp [State.ticked, Anim.drawsNow, hs, hl]

/-- From progress `20 * j`, `n` crossfade ticks: the progress, or at the fifth tick of the cycle the commit. -/
theorem crossfade_ticks {n j : Nat} {s t : State} {a : Anim} {p : Palette} (ha : s.anim = some a)
    (hp : s.launch.palettes.toList[a.pal]? = some p) (hs : p.desc.style = .sparkle) (hfade : p.desc.fade = true)
    (hl : a.lerping = true) (hlt : a.currentColor < p.colors.size) (hj : a.lastLerp = 20 * j) (hj5 : j < 5)
    (hn : j + n ≤ 5) (h : execAll (List.replicate n .animStep) s = .next t) :
    t.drawPos = s.drawPos ∧
      t.anim = some
        (if j + n < 5 then { a with lastLerp := 20 * (j + n) }
        else { a with lastLerp := 0, lerping := false, currentColor := (a.currentColor + 1) % p.colors.size }) := by
  induction n generalizing j s a with
  | zero =>
    cases h
    rw [Nat.add_zero, if_pos hj5, ← hj, ha]
    exact ⟨rfl, rfl⟩
  | succ n ih =>
    obtain ⟨m, hm, hrest⟩ := execAll_cons_next h
    obtain ⟨hlaunch, hanim, hpos⟩ := animStep_crossfade ha hp hs hfade hl hlt hm
    by_cases hlast : j = 4
    · obtain rfl : n = 0 := by omega
      cases hrest
      rw [if_neg (by omega), hanim, Anim.progress_settle_ge _ (by omega)]
      exact ⟨hpos, rfl⟩
    · rw [Anim.progress_settle_lt _ (by omega)] at hanim
      have rest := ih (j := j + 1) hanim (by rw [hlaunch]; exact hp) hl hlt (by simp only; omega) (by omega)
        (by omega) hrest
      rw [hpos, show j + 1 + n = j + (n + 1) by omega] at rest
      exact rest

/-- Settles O58: the tick that draws, then `crossfade_ticks` from progress 0. -/
theorem sparkleCycleTakesSixTicks : Obligations.SparkleCycleTakesSixTicks := by
  intro n s t a p ha hp hs hfade hl hzero hlt hn1 hn6 h
  obtain ⟨n, rfl⟩ : ∃ m, n = m + 1 := ⟨n - 1, by omega⟩
  obtain ⟨m, hm, hrest⟩ := execAll_cons_next h
  obtain ⟨hlaunch, hanim, hpos⟩ := animStep_newCycle ha hp hs hfade hl hlt hm
  obtain ⟨hpos', hanim'⟩ := crossfade_ticks (j := 0) hanim (by rw [hlaunch]; exact hp) hs hfade rfl hlt hzero (by omega)
    (by omega) hrest
  refine ⟨by rw [hpos', hpos], ?_⟩
  rw [hanim']
  obtain ⟨pal, currentColor, lerping, lastLerp, active⟩ := a
  obtain rfl : lerping = false := hl
  obtain rfl : lastLerp = 0 := hzero
  by_cases hlast : n < 5
  · rw [if_pos (by omega), if_pos (by omega)]
    simp [Anim.newCycle]
  · rw [if_neg (by omega), if_neg (by omega)]
    rfl

end Sys2Proof.Machine
end

section
/-! ### Frames stopped inside Blit, in BLIT, BEGIN and STEP (41_led_driver.md R154; 70_reset_and_hazards.md R303) -/

namespace Sys2Proof.Machine

/-! #### An illegal pixel order -/

theorem exec_blit_illegal {s : State} {c : Color} {cs : List Color} (hf : s.fault = none) (hc : s.activeChips ≠ [])
    (ho : pixelOrder s.cfg.pixelOrder = none) (hb : s.buf = c :: cs) :
    exec .blit s = .next { s with result := none, buf := cs, fault := some (.pixelOrder s.cfg.pixelOrder) } := by
  rw [exec_running hf, commandBody, blitBuffer_illegal (s := { s with result := none }) hb hc ho]
  rfl

/-- BEGIN under an illegal order, rendering first: the frame stops it. -/
theorem renderBegin_illegal_renderFirst {s : State} (c : Color) (hb : s.buf = []) (hc : s.activeChips ≠ [])
    (ho : pixelOrder s.cfg.pixelOrder = none) (horder : s.launch.params.beginOrder = .renderThenBlank) :
    renderBegin c s = raise (.pixelOrder s.cfg.pixelOrder) { s with buf := List.replicate 5 c } := by
  rw [renderBegin_renderFirst horder, flatFrame_illegal c hb hc ho, raise_bind]

/-- Blanking first, every chip is blanked before the frame stops it. -/
theorem renderBegin_illegal_blankFirst {s : State} (c : Color) (hb : s.buf = []) (hc : s.activeChips ≠ [])
    (ho : pixelOrder s.cfg.pixelOrder = none) (horder : s.launch.params.beginOrder = .blankThenRender)
    (bus : s.BusOk (blankTxns s.activeChips).length) :
    renderBegin c s = raise (.pixelOrder s.cfg.pixelOrder)
      (State.sent (blankTxns s.activeChips) { s with buf := List.replicate 5 c }) := by
  rw [renderBegin_blankFirst horder, blankAll_ok bus, Flow.bind_ok,
    flatFrame_illegal (s := s.sent _) c hb hc ho]
  rfl

theorem exec_animStep_illegal {s : State} {a : Anim} {p : Palette} (hf : s.fault = none) (hc : s.activeChips ≠ [])
    (ho : pixelOrder s.cfg.pixelOrder = none) (hb : s.buf = []) (ha : s.anim = some a)
    (hp : s.launch.palettes.toList[a.pal]? = some p) (hlt : a.currentColor < p.colors.size)
    (hstyle : ∀ tag, p.desc.style ≠ .unknown tag) :
    ∃ b, b.length = 5 ∧ exec .animStep s =
      .next { s.ticked p a with result := none, buf := b, fault := some (.pixelOrder s.cfg.pixelOrder) } := by
  obtain ⟨f, hs⟩ := stepStyle_named (s := { s with result := none }) hlt hstyle
  refine ⟨[f 2, f 3, f 4, f 5, f 6], rfl, ?_⟩
  rw [exec_animStep hf ha hp, hs, Flow.bind_ok,
    pushFrame_empty f (s := State.ticked p a { s with result := none }) hb,
    blitBuffer_illegal (s := { State.ticked p a { s with result := none } with buf := frameOf f }) rfl hc ho]
  rfl

/-- Settles O46: each of the three Blits pops one entry and raises; what stands before it is as under a legal order. -/
theorem blitNeedsAPixelOrder : Obligations.BlitNeedsAPixelOrder := by
  intro s hf hc ho
  refine ⟨fun c cs hb => exec_blit_illegal hf hc ho hb, ?_, ?_⟩
  · intro idx p hp bus
    rw [exec_animBegin hf hp]
    cases horder : s.launch.params.beginOrder with
    | renderThenBlank =>
      rw [renderBegin_illegal_renderFirst (s := s.beginning _) _ rfl hc ho horder]
      simp only [State.sent_nil]
      rfl
    | blankThenRender =>
      rw [renderBegin_illegal_blankFirst (s := s.beginning _) _ rfl hc ho horder (bus horder)]
      rfl
  · intro a p u inv ha hp hstyle hu
    have hlt := (inv.animFits a ha).currentColor_lt hp
    obtain ⟨-, hanim, hdraws, hpos⟩ :=
      animStep_next (s := { s with cfg := { s.cfg with pixelOrder := some "RGB" } }) ha hp hlt hstyle hu
    obtain ⟨b, hlen, hexec⟩ := exec_animStep_illegal hf hc ho (inv.bufEmpty hf) ha hp hlt hstyle
    refine ⟨b, hlen, ?_⟩
    rw [hexec, hanim, hdraws, hpos]
    rfl

/-! #### Six chips or more under the defaults -/

theorem State.Defaults.withBuf {o : PixelOrder} {s : State} (h : s.Defaults o) (b : List Color) :
    State.Defaults o { s with buf := b } := ⟨h.order, h.threading, h.layout, h.base, h.bus⟩

/-- A frame of BEGIN under the defaults. -/
theorem flatFrame_default_fault {o : PixelOrder} {s : State} (h : s.Defaults o) (hf : s.fault = none)
    (hb : s.buf = []) (c : Color) :
    (flatFrame c s).state.fault = if 6 ≤ s.activeChips.length then some (.registerRange 257) else none := by
  rw [flatFrame, fill_empty c hb]
  exact blitBuffer_default_fault (s := { s with buf := List.replicate 6 c }) (h.withBuf _) hf rfl

theorem State.Defaults.sent {o : PixelOrder} {s : State} (h : s.Defaults o) (ts : List Txn) : (s.sent ts).Defaults o :=
  ⟨h.order, h.threading, h.layout, h.base, State.sent_answers_ok h.bus ts⟩

/-- With six chips or more BEGIN's frame is cut after 96 transactions. -/
theorem flatFrame_crosses {o : PixelOrder} {s : State} (h : s.Defaults o) (hb : s.buf = [])
    (hc : 6 ≤ s.activeChips.length) (c : Color) :
    ∃ b, flatFrame c s =
      .raised
        { s.sent ((s.frameTxns o (List.replicate 6 c)).take 96) with
          fault := some (.registerRange 257)
          buf := b } := by
  rw [flatFrame, fill_empty c hb]
  exact blitBuffer_crosses (s := { s with buf := List.replicate 6 c }) (h.withBuf _) rfl hc

theorem flatFrame_fits {o : PixelOrder} {s : State} (h : s.Defaults o) (hb : s.buf = [])
    (hc : s.activeChips.length < 6) (c : Color) :
    flatFrame c s = .ok () (s.sent (s.frameTxns o (List.replicate 6 c))) := by
  rw [flatFrame, fill_empty c hb, blitBuffer_fits (s := { s with buf := List.replicate 6 c }) (h.withBuf _) rfl hc,
    show ({ s with buf := [] } : State) = s from State.buf_self hb]
  rfl

theorem renderBegin_default_fault {o : PixelOrder} {s : State} (h : s.Defaults o) (hf : s.fault = none)
    (hb : s.buf = []) (c : Color) :
    (renderBegin c s).state.fault = if 6 ≤ s.activeChips.length then some (.registerRange 257) else none := by
  cases horder : s.launch.params.beginOrder with
  | renderThenBlank =>
    rw [renderBegin_renderFirst horder]
    split
    · next hc =>
      obtain ⟨b, hcross⟩ := flatFrame_crosses h hb hc c
      rw [hcross]
      rfl
    · next hc =>
      rw [flatFrame_fits h hb (by omega), Flow.bind_ok, blankAll_ok (.all (h.sent _).bus _)]
      exact hf
  | blankThenRender =>
    rw [renderBegin_blankFirst horder, blankAll_ok (.all h.bus _), Flow.bind_ok]
    exact flatFrame_default_fault (h.sent _) hf hb c

/-- Settles O47: the three Blits of six entries, each from a state under the defaults. -/
theorem sixChipsPassTheLastRegister : Obligations.SixChipsPassTheLastRegister := by
  intro s t o hf ho hthreading hlayout hbase hbus
  refine ⟨fun hb h => ?_, fun idx p hp h => ?_, fun a p inv ha hp hstyle h => ?_⟩
  · obtain ⟨-, rfl⟩ := exec_next h
    exact blitBuffer_default_fault (s := { s with result := none }) ⟨ho, hthreading, hlayout, hbase, hbus⟩ hf hb
  · have defaults : (s.beginning idx.toNat).Defaults o := ⟨ho, hthreading, hlayout, hbase, hbus⟩
    rw [exec_animBegin hf hp] at h
    cases h
    refine ⟨renderBegin_default_fault defaults hf rfl _, fun hc horder => ?_⟩
    obtain ⟨b, hcross⟩ := flatFrame_crosses defaults rfl hc p.colors.head
    rw [renderBegin_renderFirst (s := s.beginning _) horder, hcross]
    rfl
  · obtain ⟨f, hs⟩ := stepStyle_named (s := { s with result := none }) ((inv.animFits a ha).currentColor_lt hp) hstyle
    rw [exec_animStep hf ha hp, hs, Flow.bind_ok,
      pushFrame_empty f (s := State.ticked p a { s with result := none }) (inv.bufEmpty hf)] at h
    cases h
    exact blitBuffer_default_fault (s := { State.ticked p a { s with result := none } with buf := frameOf f })
      ⟨ho, hthreading, hlayout, hbase, hbus⟩ hf rfl

end Sys2Proof.Machine
end

section
/-! ### The host's contracts (60_exceptions.md R264, R269) -/

namespace Sys2Proof.Machine

/-! #### Debounce -/

theorem Debouncer.edge_accepted {d : Debouncer} {t : Nat} (h : d.nextEligible ≤ t) :
    d.edge t = ({ d with nextEligible := t + d.cooldown }, true) := if_neg (by omega)

theorem Debouncer.edge_discarded {d : Debouncer} {t : Nat} (h : t < d.nextEligible) : d.edge t = (d, false) := if_pos h

/-- Settles O59: an edge before the next eligible time is discarded, any other restarts the window. -/
theorem debounceWindow : Obligations.DebounceWindow := by
  constructor
  · intro d t u ht _
    simp only [Debouncer.count, Debouncer.edge_accepted ht]
    refine ⟨rfl, fun hu => ?_, fun hu => ?_⟩
    · rw [Debouncer.edge_discarded (by exact hu)]
      exact ⟨rfl, rfl⟩
    · rw [Debouncer.edge_accepted (by exact hu)]
      rfl
  · intro l own t
    exact Debouncer.edge_accepted (Nat.zero_le t)

/-! #### The flag buttons -/

/-- An index below the number of palettes goes out as a BEGIN of it, where BEGIN's operand reaches every palette. -/
theorem selectFlag_lt {l : Launch} {i : Nat} (hl : l.palettes.size ≤ 65536) (hi : i < l.palettes.size) (c : Cfg) :
    ∃ idx : BitVec 16, idx.toNat = i ∧
      selectFlag l i c = some [.configure { c with flag := some idx.toNat }, .command (encode (.animBegin idx))] := by
  have hlt : i < 2 ^ 16 := by omega
  have htoNat : (BitVec.ofNat 16 i).toNat = i := by rw [BitVec.toNat_ofNat, Nat.mod_eq_of_lt hlt]
  refine ⟨BitVec.ofNat 16 i, htoNat, ?_⟩
  rw [selectFlag, beginFlag_ok l hlt, htoNat]
  rfl

theorem nextIndex_of_lt {n i : Nat} (h : i + 1 < n) : nextIndex n i = i + 1 := Nat.mod_eq_of_lt h

theorem nextIndex_last {n : Nat} (h : 0 < n) : nextIndex n (n - 1) = 0 := by
  rw [nextIndex, Nat.sub_add_cancel h, Nat.mod_self]

theorem prevIndex_zero {n : Nat} (h : 0 < n) : prevIndex n 0 = n - 1 := by
  rw [prevIndex, Nat.zero_add, Nat.mod_eq_of_lt (by omega)]

theorem prevIndex_succ {n i : Nat} (h : i < n) : prevIndex n (i + 1) = i := by
  rw [prevIndex, show i + 1 + n - 1 = i + n by omega, Nat.add_mod_right, Nat.mod_eq_of_lt h]

theorem nextIndex_prevIndex {n i : Nat} (h : i < n) : nextIndex n (prevIndex n i) = i := by
  cases i with
  | zero => rw [prevIndex_zero h, nextIndex_last h]
  | succ i => rw [prevIndex_succ (by omega), nextIndex_of_lt h]

theorem prevIndex_nextIndex {n i : Nat} (h : i < n) : prevIndex n (nextIndex n i) = i := by
  rcases Nat.lt_or_ge (i + 1) n with hlt | hge
  · rw [nextIndex_of_lt hlt, prevIndex_succ h]
  · obtain rfl : i = n - 1 := by omega
    rw [nextIndex_last (by omega), prevIndex_zero (by omega)]

/-- Settles O60: both buttons select an index in range; the two indices undo each other. -/
theorem flagSelectionWraps : Obligations.FlagSelectionWraps := by
  constructor
  · intro l c i hl hflag
    have hindex : c.flagIndex = i := by
      rcases hflag with h | ⟨h, rfl⟩ <;> rw [Cfg.flagIndex, h] <;> rfl
    obtain ⟨next, hnext, hfirst⟩ := selectFlag_lt hl (nextIndex_lt (NonEmpty.size_pos _) i) c
    obtain ⟨prev, hprev, hsecond⟩ := selectFlag_lt hl (prevIndex_lt (NonEmpty.size_pos _) i) c
    refine ⟨next, prev, hnext, hprev, ?_, ?_⟩
    · rw [flagNext, hindex, hfirst]
    · rw [flagPrev, hindex, hsecond]
  · intro n i h
    have hpos : 0 < n := by omega
    exact ⟨prevIndex_zero hpos, nextIndex_last hpos, nextIndex_lt hpos i, prevIndex_lt hpos i, nextIndex_prevIndex h,
      prevIndex_nextIndex h⟩

end Sys2Proof.Machine
end
